-- ==== Sys2Proof/Word.lean ====
section
/-! DEFINITION. The words of the MD5 compression core and its 128-bit quads (00_scope.md R6, R7). -/

namespace Sys2Proof

/-- `WORD`: an unsigned 32-bit word (00_scope.md R6); addition wraps modulo 2^32 (R7). -/
abbrev Word := BitVec 32

/-- An unsigned byte (00_scope.md R7). -/
abbrev Byte := BitVec 8

/-- The 64-bit length register's type (00_scope.md R6). -/
abbrev DWord := BitVec 64

/-- Four 32-bit words in the order A, B, C, D: the chaining state (10_state.md R11) and the working quad of
one compression (40_round_function.md R75) have this shape. -/
structure Quad where
  a : Word
  b : Word
  c : Word
  d : Word
  deriving DecidableEq, Repr

end Sys2Proof
end

