-- ==== Sys2Proof/Config.lean ====
section
/-! DEFINITION. What the spec leaves OPEN: named parameters with no value (00_scope.md R6; 92_eei_decisions.md D17, D21;
93_implementation_defined.md U7, U10, U12). None has a body, so no proof can rest on a value of one. -/

namespace Sys2Proof

/-- `N_INSTANCES`: how many cores a system holds (60_exceptions.md R174; OPEN, 92_eei_decisions.md D21). -/
opaque Config.nInstances : Nat

/-- `LATENCY`: cycles from command to response (70_reset_and_hazards.md R187; OPEN and informative only, no rule
reads it). -/
opaque Config.latency : Nat

/-- Whether the host accepts upper-case hexadecimal digits in a digest text: "the host's choice"
(48_host_procedures.md R143; 93_implementation_defined.md U12). -/
opaque Config.hostAcceptsUpperHex : Bool

end Sys2Proof
end

