-- ==== Sys2Proof/Machine/Tables.lean ====
section
/-! DEFINITION. The three read-only tables of the core, "fixed at manufacture" (10_state.md R19): the additive constants K
(40_round_function.md R70), the rotation amounts R (R71) and the initial vector IV (R72). Their values are the spec's
literals, which the spec itself marks as general knowledge (93_implementation_defined.md G1 to G3; log entry 10). -/

namespace Sys2Proof.Machine

/-- K[0] to K[15] (40_round_function.md R70). -/
def kGroup1 : List Word :=
  [0xD76AA478#32, 0xE8C7B756#32, 0x242070DB#32, 0xC1BDCEEE#32,
   0xF57C0FAF#32, 0x4787C62A#32, 0xA8304613#32, 0xFD469501#32,
   0x698098D8#32, 0x8B44F7AF#32, 0xFFFF5BB1#32, 0x895CD7BE#32,
   0x6B901122#32, 0xFD987193#32, 0xA679438E#32, 0x49B40821#32]

/-- K[16] to K[31] (40_round_function.md R70). -/
def kGroup2 : List Word :=
  [0xF61E2562#32, 0xC040B340#32, 0x265E5A51#32, 0xE9B6C7AA#32,
   0xD62F105D#32, 0x02441453#32, 0xD8A1E681#32, 0xE7D3FBC8#32,
   0x21E1CDE6#32, 0xC33707D6#32, 0xF4D50D87#32, 0x455A14ED#32,
   0xA9E3E905#32, 0xFCEFA3F8#32, 0x676F02D9#32, 0x8D2A4C8A#32]

/-- K[32] to K[47] (40_round_function.md R70). -/
def kGroup3 : List Word :=
  [0xFFFA3942#32, 0x8771F681#32, 0x6D9D6122#32, 0xFDE5380C#32,
   0xA4BEEA44#32, 0x4BDECFA9#32, 0xF6BB4B60#32, 0xBEBFBC70#32,
   0x289B7EC6#32, 0xEAA127FA#32, 0xD4EF3085#32, 0x04881D05#32,
   0xD9D4D039#32, 0xE6DB99E5#32, 0x1FA27CF8#32, 0xC4AC5665#32]

/-- K[48] to K[63] (40_round_function.md R70). -/
def kGroup4 : List Word :=
  [0xF4292244#32, 0x432AFF97#32, 0xAB9423A7#32, 0xFC93A039#32,
   0x655B59C3#32, 0x8F0CCC92#32, 0xFFEFF47D#32, 0x85845DD1#32,
   0x6FA87E4F#32, 0xFE2CE6E0#32, 0xA3014314#32, 0x4E0811A1#32,
   0xF7537E82#32, 0xBD3AF235#32, 0x2AD7D2BB#32, 0xEB86D391#32]

/-- The additive constant table K, 64 words of 32 bits (40_round_function.md R70). -/
def kTable : List Word := kGroup1 ++ kGroup2 ++ kGroup3 ++ kGroup4

/-- `K[i]`. Defined for i in 0..63; no step and no accepted command uses another i. -/
def kConst (i : Nat) : Word := kTable.getD i 0

/-- The rotation amounts of steps 0 to 15: four values, repeated four times (40_round_function.md R71). -/
def rGroup1 : List Nat :=
  [7, 12, 17, 22, 7, 12, 17, 22, 7, 12, 17, 22, 7, 12, 17, 22]

/-- The rotation amounts of steps 16 to 31: four values, repeated four times (40_round_function.md R71). -/
def rGroup2 : List Nat :=
  [5, 9, 14, 20, 5, 9, 14, 20, 5, 9, 14, 20, 5, 9, 14, 20]

/-- The rotation amounts of steps 32 to 47: four values, repeated four times (40_round_function.md R71). -/
def rGroup3 : List Nat :=
  [4, 11, 16, 23, 4, 11, 16, 23, 4, 11, 16, 23, 4, 11, 16, 23]

/-- The rotation amounts of steps 48 to 63: four values, repeated four times (40_round_function.md R71). -/
def rGroup4 : List Nat :=
  [6, 10, 15, 21, 6, 10, 15, 21, 6, 10, 15, 21, 6, 10, 15, 21]

/-- The rotation table R, 64 entries in 4..23 (40_round_function.md R71). -/
def rTable : List Nat := rGroup1 ++ rGroup2 ++ rGroup3 ++ rGroup4

/-- `R[i]`. Defined for i in 0..63; no step and no accepted command uses another i. -/
def rAmount (i : Nat) : Nat := rTable.getD i 0

/-- The initial vector IV (40_round_function.md R72). -/
def iv : Quad := ⟨0x67452301#32, 0xEFCDAB89#32, 0x98BADCFE#32, 0x10325476#32⟩

end Sys2Proof.Machine
end

