-- ==== Sys2Proof/Syntax.lean ====
section
/-! DEFINITION. The sixteen commands of the core, one constructor per row of spec/opcode_table.json
(30_encoding.md R50), and the pair of words that carries a command. -/

namespace Sys2Proof

/-- What the host presents on the port: a command word and a data word, always both (30_encoding.md R45, R46). -/
structure Command where
  cmd : Word
  din : Word
  deriving DecidableEq, Repr

/-- A command with the operands it uses. `idx` is the 7-bit IDX field (30_encoding.md R48); `din` is all of DIN, and
PUTB carries only `DIN[7:0]` (R49). A command that ignores DIN carries none of it. -/
inductive Instr where
  /-- No operation (42_state_commands.md R100). -/
  | nop
  /-- Load the initial vector and open the resume gate (R101). -/
  | init
  /-- Overwrite one chaining word (R102). -/
  | setcv (idx : BitVec 7) (din : Word)
  /-- Read one chaining word (R103). -/
  | getcv (idx : BitVec 7)
  /-- Read one digest byte (R105). -/
  | getdig (idx : BitVec 7)
  /-- Read the status register (R106). -/
  | rdstat
  /-- Append one byte to the block buffer (43_block_commands.md R110). -/
  | putb (byte : Byte)
  /-- Append four bytes, least significant first (R111). -/
  | putw (din : Word)
  /-- Discard a partly filled block (R112). -/
  | clrbuf
  /-- Compress the buffered block into the chaining state (R113). -/
  | compress
  /-- Write one half of the length register (44_padding_commands.md R120). -/
  | setlen (idx : BitVec 7) (din : Word)
  /-- Read one half of the length register (R121). -/
  | getlen (idx : BitVec 7)
  /-- The padding length calculator (R122). -/
  | padlen
  /-- One byte of the padding (R123). -/
  | padbyte (idx : BitVec 7)
  /-- Read one additive constant (45_table_commands.md R130). -/
  | rdk (idx : BitVec 7)
  /-- Read one rotation amount (R131). -/
  | rdr (idx : BitVec 7)
  deriving DecidableEq, Repr

end Sys2Proof
end

