-- ==== Sys2Proof/Machine/State.lean ====
section
/-! DEFINITION. The state of one core (10_state.md R10), the responses it has given, the port transactions still to come,
and the reasons a step can stop. Everything is plain data. -/

namespace Sys2Proof.Machine

/-- The status of a response (60_exceptions.md R160). Codes 6..15 are reserved and never raised; their names do not
exist here. -/
inductive Status where
  /-- Code 0: every command that completes. -/
  | ok
  /-- Code 1: PUTB, PUTW, COMPRESS (R161). -/
  | invalidBlockSize
  /-- Code 2: PADLEN, PADBYTE (R162). -/
  | invalidLength
  /-- Code 3: "never raised by the core; reserved for the host" (48_host_procedures.md R143). -/
  | invalidDigestEncoding
  /-- Code 4: decode of any command; PADBYTE (R163). -/
  | illegalCommand
  /-- Code 5: SETCV (R164). -/
  | stateLocked
  deriving DecidableEq, Repr

/-- One response of the port: STATUS and DOUT (30_encoding.md R47). -/
structure Response where
  status : Status
  dout : Word
  deriving DecidableEq, Repr

/-- One transaction of the port as the host drives it: whether the reset input is asserted while it lasts, and the command
presented, if any (30_encoding.md R45; 70_reset_and_hazards.md R180, R181). With `reset` true the command, if any, is
either not accepted or loses its response (R181). -/
structure PortInput where
  reset : Bool
  command : Option Command
  deriving DecidableEq, Repr

/-- The block buffer BUF as a list of (position, byte) pairs, positions strictly rising in 0..63 (10_state.md R13;
20_memory.md R30). A position not listed is a byte that nothing has written since reset; it has no value
(10_state.md R24; log entry 4). -/
abbrev Memory := List Host.Cell

/-- The architectural state of one core (10_state.md R10), the reset line's history (70_reset_and_hazards.md R182), the
responses of the run (R188), and the port transactions still to come (log entry 1). -/
structure State where
  /-- `CV[0..3]` = A, B, C, D, the chaining state (10_state.md R11). -/
  cv : Quad
  /-- `BUF[0..63]` (10_state.md R13). -/
  buf : Memory
  /-- `BCNT`, 7 bits (10_state.md R14). -/
  bcnt : BitVec 7
  /-- `LOADABLE`, 1 bit (10_state.md R15). -/
  loadable : Bool
  /-- `LEN`, 64 bits (10_state.md R16). -/
  len : DWord
  /-- Reset has been asserted since power-up (70_reset_and_hazards.md R182; log entry 5). -/
  wasReset : Bool
  /-- The responses given so far, oldest first (70_reset_and_hazards.md R188; log entry 2). -/
  responses : List Response
  /-- The port transactions the host has still to make, oldest first (30_encoding.md R45; log entry 1). -/
  port : List PortInput
  deriving DecidableEq, Repr

/-- Why the machine stops with a fault. An error of a command is no fault but a response (60_exceptions.md R167). -/
inductive Fault where
  /-- Raised by COMPRESS when a byte of BUF that it reads has not been written since reset. Safe: 10_state.md R24 allows
  it and says it is unreachable. -/
  | unwrittenBufferByte
  deriving DecidableEq, Repr

/-- Why the model gives no meaning. -/
inductive Refusal where
  /-- Raised by `exec`'s arm of a command that has no meaning yet; no arm uses it. Safe. -/
  | notModelled (mnemonic : String)
  /-- Raised by `step` for a command presented before the first reset: such a command "has no defined effect", and "a
  model admits no command before the first reset (a refusal)" (70_reset_and_hazards.md R182;
  93_implementation_defined.md U1). Safe. -/
  | commandBeforeFirstReset
  deriving DecidableEq, Repr

/-- The core right after reset (10_state.md R22; 70_reset_and_hazards.md R180), at the start of a run
(70_reset_and_hazards.md R188) and with no transaction waiting. -/
def State.reset : State where
  cv := iv
  buf := []
  bcnt := 0
  loadable := true
  len := 0
  wasReset := true
  responses := []
  port := []

end Sys2Proof.Machine
end

