-- ==== Sys2Proof/Machine/Ops.lean ====
section
/-! DEFINITION. The operations every command is built from: reading and writing the block buffer, answering, raising an
error status (the one thing an error does: the core has no traps, 60_exceptions.md R165, R167), appending bytes, and the
reset input. -/

namespace Sys2Proof.Machine

/-- The result of running one command. -/
abbrev Result := Host.Outcome State Fault Refusal

/-! ## The block buffer -/

/-- `BufRead(k)` (00_scope.md R8); none where nothing has written the byte. -/
def Memory.read : Memory → Nat → Option Byte
  | [], _ => none
  | (k', b) :: rest, k => if k' = k then some b else Memory.read rest k

/-- `BufWrite(k, v)` (00_scope.md R8), keeping the positions strictly rising. -/
def Memory.write : Memory → Nat → Byte → Memory
  | [], k, v => [(k, v)]
  | (k', b) :: rest, k, v =>
    if k < k' then (k, v) :: (k', b) :: rest
    else if k = k' then (k, v) :: rest
    else (k', b) :: Memory.write rest k v

/-- Bytes written one after another from position `k` upwards (10_state.md R13; 43_block_commands.md R111). -/
def Memory.writeBytes : Memory → Nat → List Byte → Memory
  | m, _, [] => m
  | m, k, v :: vs => Memory.writeBytes (Memory.write m k v) (k + 1) vs

/-- The `n` bytes from position `k` upwards; none where nothing has written one of them. -/
def Memory.readBytes (m : Memory) : Nat → Nat → Option (List Byte)
  | _, 0 => some []
  | k, n + 1 =>
    match m.read k, m.readBytes (k + 1) n with
    | some b, some bs => some (b :: bs)
    | _, _ => none

/-- The whole block, `BufRead(0)` to `BufRead(63)` (43_block_commands.md R113). -/
def Memory.block (m : Memory) : Option (List Byte) := m.readBytes 0 64

/-- The canonical form: positions strictly rising, all in 0..63 (20_memory.md R30). An unlisted position has no value, so
no entry can equal what an unlisted position reads as. -/
abbrev Memory.wf (m : Memory) : Prop :=
  (m.map Prod.fst).Pairwise (· < ·) ∧ ∀ c ∈ m, c.1 < 64

/-! ## Responses -/

/-- The one response a command gives (30_encoding.md R45, R47), after the effects already in `s`. -/
def State.answer (s : State) (r : Response) : State := { s with responses := s.responses ++ [r] }

/-- `respond(v)`: the response (OK, v) (00_scope.md R8). -/
def respond (v : Word) (s : State) : Result := .next (s.answer ⟨.ok, v⟩)

/-- `raise Status(code)`: the response (code, 0) and no other effect (00_scope.md R8; 60_exceptions.md R165). It is given
the state from before the command, since all checks precede all writes. -/
def raise (code : Status) (s : State) : Result := .next (s.answer ⟨code, 0⟩)

/-- The response of a command that reads one entry of an indexed place: the entry, or ILLEGAL_COMMAND where the index is
outside the place, as the decoder answers for such an index (30_encoding.md R52; log entry 9). -/
def respondEntry (v : Option Word) (s : State) : Result :=
  match v with
  | some w => respond w s
  | none => raise .illegalCommand s

/-! ## The buffer's fill count -/

/-- Bytes appended at position BCNT (43_block_commands.md R110, R111): "A write that would take it above 64 is refused
with INVALID_BLOCK_SIZE" (10_state.md R14; log entry 8), and no part of it is written (R111). Otherwise BCNT rises by
their number and LOADABLE is cleared (10_state.md R15). -/
def appendBytes (bytes : List Byte) (s : State) : Result :=
  if 64 < s.bcnt.toNat + bytes.length then raise .invalidBlockSize s
  else respond 0 { s with
    buf := s.buf.writeBytes s.bcnt.toNat bytes
    bcnt := s.bcnt + BitVec.ofNat 7 bytes.length
    loadable := false }

/-! ## The reset input -/

/-- Reset asserted: CV, BCNT, LOADABLE and LEN take their reset values, and no byte of BUF counts as written any more
(70_reset_and_hazards.md R180; 10_state.md R22). It gives no response (R181) and takes none back (log entry 3); the
host's transactions still to come stay. -/
def assertReset (s : State) : State :=
  { State.reset with responses := s.responses, port := s.port }

end Sys2Proof.Machine
end

