-- ==== Sys2Proof/Machine/Operands.lean ====
section
/-! DEFINITION. The operand forms: the word, byte or half that an index selects, and the byte lanes of DIN
(00_scope.md R7; 20_memory.md R32, R33, R37). Each selector answers none for an index outside its place. -/

namespace Sys2Proof.Machine

/-- `v[8k+7:8k]`, byte k of a word, byte 0 the least significant (00_scope.md R7). -/
def byteLane (v : Word) (k : Nat) : Byte := v.extractLsb' (8 * k) 8

/-- The byte lanes of a word in the order PUTW stores them, least significant first (20_memory.md R32). -/
def wordLanes (v : Word) : List Byte := [byteLane v 0, byteLane v 1, byteLane v 2, byteLane v 3]

/-- `le32(b0, b1, b2, b3)`, the little-endian reading of four bytes (00_scope.md R7). -/
def le32 (b0 b1 b2 b3 : Byte) : Word :=
  BitVec.ofNat 32 (b0.toNat + 256 * b1.toNat + 65536 * b2.toNat + 16777216 * b3.toNat)

/-- `le64_bytes(v)`: the bytes of a 64-bit number, least significant first (00_scope.md R7). -/
def le64Bytes (v : Nat) : List Byte := (List.range 8).map fun j => BitVec.ofNat 8 (v / 2 ^ (8 * j))

/-- `CV[j]`, 0 = A, 1 = B, 2 = C, 3 = D (00_scope.md R8; 42_state_commands.md R103). -/
def cvWord? (q : Quad) : Nat → Option Word
  | 0 => some q.a
  | 1 => some q.b
  | 2 => some q.c
  | 3 => some q.d
  | _ => none

/-- `CV[j] <- v` (00_scope.md R8; 42_state_commands.md R102). -/
def setCvWord? (q : Quad) (v : Word) : Nat → Option Quad
  | 0 => some { q with a := v }
  | 1 => some { q with b := v }
  | 2 => some { q with c := v }
  | 3 => some { q with d := v }
  | _ => none

/-- Digest byte t = 4j + k: `CV[j][8k+7:8k]` with j = t div 4 and k = t mod 4 (20_memory.md R33; 42_state_commands.md
R105). -/
def digestByte? (q : Quad) (t : Nat) : Option Byte :=
  (cvWord? q (t / 4)).map fun w => byteLane w (t % 4)

/-- Half idx of LEN: `LEN[32·idx + 31 : 32·idx]` (44_padding_commands.md R121). -/
def lenHalf? (len : DWord) : Nat → Option Word
  | 0 => some (len.extractLsb' 0 32)
  | 1 => some (len.extractLsb' 32 32)
  | _ => none

/-- LEN with half idx replaced and the other half kept (44_padding_commands.md R120). -/
def setLenHalf? (len : DWord) (v : Word) : Nat → Option DWord
  | 0 => some (len.extractLsb' 32 32 ++ v)
  | 1 => some (v ++ len.extractLsb' 0 32)
  | _ => none

end Sys2Proof.Machine
end

