-- ==== Sys2Proof/Machine/Round.lean ====
section
/-! DEFINITION. The round function mixer and the compression function (40_round_function.md R73 to R78). Pure functions:
they read nothing but their arguments (R77). -/

namespace Sys2Proof.Machine

/-- `rotl32(x, n)` for 0 < n < 32, by two logical shifts (00_scope.md R7). -/
def rotl32 (x : Word) (n : Nat) : Word := (x <<< n) ||| (x >>> (32 - n))

/-- Round function F, steps 0..15 (40_round_function.md R73). -/
def roundF (b c d : Word) : Word := (b &&& c) ||| (~~~b &&& d)

/-- Round function G, steps 16..31 (40_round_function.md R73). -/
def roundG (b c d : Word) : Word := (b &&& d) ||| (c &&& ~~~d)

/-- Round function H, steps 32..47 (40_round_function.md R73). -/
def roundH (b c d : Word) : Word := b ^^^ c ^^^ d

/-- Round function I, steps 48..63 (40_round_function.md R73). -/
def roundI (b c d : Word) : Word := c ^^^ (b ||| ~~~d)

/-- `f_i(b, c, d)`, selected by the range of the step i (40_round_function.md R73). -/
def roundFun (i : Nat) (b c d : Word) : Word :=
  if i < 16 then roundF b c d
  else if i < 32 then roundG b c d
  else if i < 48 then roundH b c d
  else roundI b c d

/-- `g(i)`, the index of the message word used in step i (40_round_function.md R74). -/
def msgIndex (i : Nat) : Nat :=
  if i < 16 then i
  else if i < 32 then (5 * i + 1) % 16
  else if i < 48 then (3 * i + 5) % 16
  else (7 * i) % 16

/-- The message words of a block: word j is `le32` of bytes 4j to 4j + 3 (20_memory.md R31). -/
def messageWords : List Byte → List Word
  | b0 :: b1 :: b2 :: b3 :: rest => le32 b0 b1 b2 b3 :: messageWords rest
  | _ => []

/-- The sum `s` of step i with the message word `m` = `W[g(i)]`, modulo 2^32 (40_round_function.md R75, R78). -/
def stepSum (i : Nat) (m : Word) (q : Quad) : Word := q.a + roundFun i q.b q.c q.d + kConst i + m

/-- Step i with the message word `m` = `W[g(i)]`: `(d, b + rotl32(s, R[i]), b, c)` (40_round_function.md R75). -/
def mixStep (i : Nat) (m : Word) (q : Quad) : Quad :=
  { a := q.d
    b := q.b + rotl32 (stepSum i m q) (rAmount i)
    c := q.b
    d := q.c }

/-- The steps i = 0, 1, ..., 63 in increasing order, each with its message word `W[g(i)]` (40_round_function.md R74, R76). -/
def schedule (w : List Word) : List (Nat × Word) :=
  (List.range 64).filterMap fun i => w[msgIndex i]?.map fun m => (i, m)

/-- The feed-forward: word-wise addition modulo 2^32 into the incoming state (40_round_function.md R76). -/
def feedForward (cv q : Quad) : Quad :=
  { a := cv.a + q.a, b := cv.b + q.b, c := cv.c + q.c, d := cv.d + q.d }

/-- The 64 steps from a working quad (40_round_function.md R76). -/
def mixSteps (w : List Word) (q : Quad) : Quad := (schedule w).foldl (fun q p => mixStep p.1 p.2 q) q

/-- `Compress(cv, blk)` (40_round_function.md R76). Irreducible, so that comparing two states never unfolds 64 steps; its
equation is `compress_eq` (Laws/Round.lean). -/
@[irreducible] def compress (cv : Quad) (blk : List Byte) : Quad := feedForward cv (mixSteps (messageWords blk) cv)

end Sys2Proof.Machine
end

