-- ==== Sys2Proof/Machine/BlockCommands.lean ====
section
/-! DEFINITION. The meanings of PUTB, PUTW, CLRBUF and COMPRESS (43_block_commands.md). -/

namespace Sys2Proof.Machine

/-- PUTB: append `DIN[7:0]` (43_block_commands.md R110). -/
def execPutb (byte : Byte) (s : State) : Result := appendBytes [byte] s

/-- PUTW: append the four bytes of DIN, least significant first, all or none (43_block_commands.md R111). -/
def execPutw (din : Word) (s : State) : Result := appendBytes (wordLanes din) s

/-- CLRBUF: BCNT := 0 and nothing else (43_block_commands.md R112). -/
def execClrbuf (s : State) : Result := respond 0 { s with bcnt := 0 }

/-- COMPRESS: INVALID_BLOCK_SIZE unless BCNT = 64, else CV := Compress(CV, BUF), BCNT := 0, LOADABLE := 0
(43_block_commands.md R113). The fault is unreachable (10_state.md R24; log entry 4). -/
def execCompress (s : State) : Result :=
  if s.bcnt ≠ 64 then raise .invalidBlockSize s
  else match s.buf.block with
    | none => .fault .unwrittenBufferByte
    | some blk => respond 0 { s with cv := compress s.cv blk, bcnt := 0, loadable := false }

end Sys2Proof.Machine
end

