-- ==== Sys2Proof/Machine/Padding.lean ====
section
/-! DEFINITION. The padding length calculator (41_padding_function.md R90 to R94). Pure functions of the message byte
length n (R97). Where 90_conflicts.md C1 and C4 name the boundary, R90 and R96 are followed. -/

namespace Sys2Proof.Machine

/-- `LEN_MAX = 2^61 − 1` (41_padding_function.md R94). -/
def lenMax : Nat := 2 ^ 61 - 1

/-- `Z(n) = (55 − n) mod 64`, the mathematical modulus (41_padding_function.md R90; 00_scope.md R7). -/
def zeroFill (n : Nat) : Nat := ((55 - (n : Int)) % 64).toNat

/-- `PadLen(n) = 9 + Z(n)` (41_padding_function.md R91); above LEN_MAX see log entry 16. -/
def padLen (n : Nat) : Nat := 9 + zeroFill n

/-- `PadByte(n, k)` for k below `PadLen(n)` (41_padding_function.md R93); none above, where it is undefined. For n above
LEN_MAX see log entry 16. -/
def padByte? (n k : Nat) : Option Byte :=
  if padLen n ≤ k then none
  else if k = 0 then some 0x80
  else if k ≤ zeroFill n then some 0x00
  else some (BitVec.ofNat 8 (8 * n / 2 ^ (8 * (k - zeroFill n - 1))))

/-- `pad(n)`, the whole padding (41_padding_function.md R90). DESIGN CHOICE: the function has values above LEN_MAX too, with
8n reduced modulo 2^64 in the length field; R90 defines the padding, and R94 applies it, only up to LEN_MAX (log entry
16). -/
def pad (n : Nat) : List Byte := 0x80 :: (List.replicate (zeroFill n) 0x00 ++ le64Bytes (8 * n))

end Sys2Proof.Machine
end

