-- ==== Sys2Proof/Machine/PaddingCommands.lean ====
section
/-! DEFINITION. The meanings of SETLEN, GETLEN, PADLEN and PADBYTE (44_padding_commands.md). -/

namespace Sys2Proof.Machine

/-- SETLEN: half idx of LEN := DIN, the other half kept (44_padding_commands.md R120). -/
def execSetlen (idx : BitVec 7) (din : Word) (s : State) : Result :=
  match setLenHalf? s.len din idx.toNat with
  | none => raise .illegalCommand s
  | some len => respond 0 { s with len := len }

/-- GETLEN: half idx of LEN, whatever its value (44_padding_commands.md R121). -/
def execGetlen (idx : BitVec 7) (s : State) : Result := respondEntry (lenHalf? s.len idx.toNat) s

/-- PADLEN: INVALID_LENGTH above LEN_MAX, else `PadLen(LEN)` (44_padding_commands.md R122). -/
def execPadlen (s : State) : Result :=
  if lenMax < s.len.toNat then raise .invalidLength s
  else respond (BitVec.ofNat 32 (padLen s.len.toNat)) s

/-- PADBYTE: an index above 71 is ILLEGAL_COMMAND as in decode; then INVALID_LENGTH above LEN_MAX; then ILLEGAL_COMMAND
for an index at or beyond `PadLen(LEN)`; else the padding byte (44_padding_commands.md R123; 60_exceptions.md R170). -/
def execPadbyte (idx : BitVec 7) (s : State) : Result :=
  if 71 < idx.toNat then raise .illegalCommand s
  else if lenMax < s.len.toNat then raise .invalidLength s
  else respondEntry ((padByte? s.len.toNat idx.toNat).map fun b => b.setWidth 32) s

end Sys2Proof.Machine
end

