-- ==== Sys2Proof/Machine/Flags.lean ====
section
/-! DEFINITION. The core has no condition flags (10_state.md R18). What stands in their place: the 4-bit status codes of
responses (60_exceptions.md R160) and the read-only view STAT (10_state.md R17). -/

namespace Sys2Proof.Machine

/-- The 4-bit code of a status (60_exceptions.md R160). -/
def Status.code : Status → BitVec 4
  | .ok => 0
  | .invalidBlockSize => 1
  | .invalidLength => 2
  | .invalidDigestEncoding => 3
  | .illegalCommand => 4
  | .stateLocked => 5

/-- `STAT`: BCNT in bits [6:0], LOADABLE in bit [8], every other bit 0 (10_state.md R17). -/
def statView (s : State) : Word :=
  s.bcnt.setWidth 32 ||| ((BitVec.ofBool s.loadable).setWidth 32 <<< 8)

end Sys2Proof.Machine
end

