-- ==== Sys2Proof/Machine/StateCommands.lean ====
section
/-! DEFINITION. The meanings of NOP, INIT, SETCV, GETCV, GETDIG and RDSTAT (42_state_commands.md). -/

namespace Sys2Proof.Machine

/-- NOP: `respond(0)` (42_state_commands.md R100). -/
def execNop (s : State) : Result := respond 0 s

/-- INIT: CV := IV, BCNT := 0, LOADABLE := 1; LEN and BUF unchanged (42_state_commands.md R101). -/
def execInit (s : State) : Result :=
  respond 0 { s with cv := iv, bcnt := 0, loadable := true }

/-- SETCV: STATE_LOCKED while LOADABLE is 0, else `CV[idx] <- DIN` (42_state_commands.md R102). An index above 3 is
ILLEGAL_COMMAND, before the gate is looked at (60_exceptions.md R170). -/
def execSetcv (idx : BitVec 7) (din : Word) (s : State) : Result :=
  match setCvWord? s.cv din idx.toNat with
  | none => raise .illegalCommand s
  | some cv => if s.loadable then respond 0 { s with cv := cv } else raise .stateLocked s

/-- GETCV: `respond(CV[idx])` (42_state_commands.md R103). -/
def execGetcv (idx : BitVec 7) (s : State) : Result := respondEntry (cvWord? s.cv idx.toNat) s

/-- GETDIG: digest byte idx, zero-extended (42_state_commands.md R105). -/
def execGetdig (idx : BitVec 7) (s : State) : Result :=
  respondEntry ((digestByte? s.cv idx.toNat).map fun b => b.setWidth 32) s

/-- RDSTAT: `respond(STAT)` (42_state_commands.md R106). -/
def execRdstat (s : State) : Result := respond (statView s) s

end Sys2Proof.Machine
end

