-- ==== Sys2Proof/Machine/TableCommands.lean ====
section
/-! DEFINITION. The meanings of RDK and RDR (45_table_commands.md). -/

namespace Sys2Proof.Machine

/-- RDK: `respond(K[idx])` (45_table_commands.md R130). -/
def execRdk (idx : BitVec 7) (s : State) : Result := respondEntry kTable[idx.toNat]? s

/-- RDR: `respond(zext32(R[idx]))` (45_table_commands.md R131). -/
def execRdr (idx : BitVec 7) (s : State) : Result :=
  respondEntry (rTable[idx.toNat]?.map fun r => BitVec.ofNat 32 r) s

end Sys2Proof.Machine
end

