-- ==== Sys2Proof/Machine/Dispatch.lean ====
section
/-! DEFINITION. One arm per command: the meaning that runs it. -/

namespace Sys2Proof.Machine

def exec (i : Instr) (s : State) : Host.Outcome State Fault Refusal :=
  match i with
  -- 42_state_commands.md
  | .nop => Sys2Proof.Machine.execNop s
  | .init => Sys2Proof.Machine.execInit s
  | .setcv idx din => Sys2Proof.Machine.execSetcv idx din s
  | .getcv idx => Sys2Proof.Machine.execGetcv idx s
  | .getdig idx => Sys2Proof.Machine.execGetdig idx s
  | .rdstat => Sys2Proof.Machine.execRdstat s
  -- 43_block_commands.md
  | .putb byte => Sys2Proof.Machine.execPutb byte s
  | .putw din => Sys2Proof.Machine.execPutw din s
  | .clrbuf => Sys2Proof.Machine.execClrbuf s
  | .compress => Sys2Proof.Machine.execCompress s
  -- 44_padding_commands.md
  | .setlen idx din => Sys2Proof.Machine.execSetlen idx din s
  | .getlen idx => Sys2Proof.Machine.execGetlen idx s
  | .padlen => Sys2Proof.Machine.execPadlen s
  | .padbyte idx => Sys2Proof.Machine.execPadbyte idx s
  -- 45_table_commands.md
  | .rdk idx => Sys2Proof.Machine.execRdk idx s
  | .rdr idx => Sys2Proof.Machine.execRdr idx s

end Sys2Proof.Machine
end

