-- ==== Sys2Proof/WellFormed.lean ====
section
/-! DEFINITION. Which command terms have an encoding: an indexed command's IDX lies in its range
(30_encoding.md R48, R50). -/

namespace Sys2Proof

/-- The IDX field a command carries; 0 for a command that takes no index (30_encoding.md R48). -/
def Instr.index : Instr → BitVec 7
  | .nop => 0
  | .init => 0
  | .setcv idx _ => idx
  | .getcv idx => idx
  | .getdig idx => idx
  | .rdstat => 0
  | .putb _ => 0
  | .putw _ => 0
  | .clrbuf => 0
  | .compress => 0
  | .setlen idx _ => idx
  | .getlen idx => idx
  | .padlen => 0
  | .padbyte idx => idx
  | .rdk idx => idx
  | .rdr idx => idx

/-- The largest IDX a command admits: the IDX column of 30_encoding.md R50. -/
def Instr.indexMax : Instr → Nat
  | .nop => 0
  | .init => 0
  | .setcv _ _ => 3
  | .getcv _ => 3
  | .getdig _ => 15
  | .rdstat => 0
  | .putb _ => 0
  | .putw _ => 0
  | .clrbuf => 0
  | .compress => 0
  | .setlen _ _ => 1
  | .getlen _ => 1
  | .padlen => 0
  | .padbyte _ => 71
  | .rdk _ => 63
  | .rdr _ => 63

/-- The command has an encoding that decodes: its index lies in the range of its row (30_encoding.md R48, R51). -/
abbrev Instr.WellFormed (i : Instr) : Prop := i.index.toNat ≤ i.indexMax

end Sys2Proof
end

