-- ==== Sys2Proof/Decode.lean ====
section
/-! DEFINITION. The decoder of 30_encoding.md R51, total on every pair of words and rejecting by name, and the encoder
written from the same table (R46, R50). -/

namespace Sys2Proof

/-- `CMD[7:0]` = OP (30_encoding.md R46). -/
def opField (cmd : Word) : BitVec 8 := cmd.extractLsb' 0 8

/-- `CMD[14:8]` = IDX (30_encoding.md R46, R48). -/
def idxField (cmd : Word) : BitVec 7 := cmd.extractLsb' 8 7

/-- `CMD[31:15]` = RSV, which must be 0 (30_encoding.md R46). -/
def rsvField (cmd : Word) : BitVec 17 := cmd.extractLsb' 15 17

/-- One row of the opcode map: OP, the largest IDX, and the command the row stands for with the operands it takes from
IDX and DIN (30_encoding.md R50). -/
structure OpcodeRow where
  op : BitVec 8
  idxMax : Nat
  build : BitVec 7 → Word → Instr

/-- The rows with OP 0x00 to 0x05 (30_encoding.md R50; 42_state_commands.md). -/
def stateRows : List OpcodeRow :=
  [⟨0x00, 0, fun _ _ => .nop⟩,
   ⟨0x01, 0, fun _ _ => .init⟩,
   ⟨0x02, 3, fun idx din => .setcv idx din⟩,
   ⟨0x03, 3, fun idx _ => .getcv idx⟩,
   ⟨0x04, 15, fun idx _ => .getdig idx⟩,
   ⟨0x05, 0, fun _ _ => .rdstat⟩]

/-- The rows with OP 0x10 to 0x13 (30_encoding.md R50; 43_block_commands.md). PUTB takes `DIN[7:0]` (R49). -/
def blockRows : List OpcodeRow :=
  [⟨0x10, 0, fun _ din => .putb (din.extractLsb' 0 8)⟩,
   ⟨0x11, 0, fun _ din => .putw din⟩,
   ⟨0x12, 0, fun _ _ => .clrbuf⟩,
   ⟨0x13, 0, fun _ _ => .compress⟩]

/-- The rows with OP 0x20 to 0x23 (30_encoding.md R50; 44_padding_commands.md). -/
def paddingRows : List OpcodeRow :=
  [⟨0x20, 1, fun idx din => .setlen idx din⟩,
   ⟨0x21, 1, fun idx _ => .getlen idx⟩,
   ⟨0x22, 0, fun _ _ => .padlen⟩,
   ⟨0x23, 71, fun idx _ => .padbyte idx⟩]

/-- The rows with OP 0x30 and 0x31 (30_encoding.md R50; 45_table_commands.md). -/
def tableRows : List OpcodeRow :=
  [⟨0x30, 63, fun idx _ => .rdk idx⟩,
   ⟨0x31, 63, fun idx _ => .rdr idx⟩]

/-- The opcode map of 30_encoding.md R50. -/
def opcodeTable : List OpcodeRow := stateRows ++ blockRows ++ paddingRows ++ tableRows

/-- Why a command word is ILLEGAL: the three tests of 30_encoding.md R51, R52, in order. -/
inductive IllegalReason where
  /-- `CMD[31:15] ≠ 0`. -/
  | reservedBits (rsv : BitVec 17)
  /-- No row has this OP. -/
  | reservedOpcode (op : BitVec 8)
  /-- The IDX is above the row's range. -/
  | indexOutOfRange (op : BitVec 8) (idx : BitVec 7)
  deriving DecidableEq, Repr

/-- "Either one row of rule R50 with its idx, or ILLEGAL" (30_encoding.md R51). -/
inductive Decoded where
  | command (i : Instr)
  | illegal (why : IllegalReason)
  deriving DecidableEq, Repr

/-- The decoder, in the order of the pseudocode of 30_encoding.md R51. -/
def decode (c : Command) : Decoded :=
  if rsvField c.cmd ≠ 0 then .illegal (.reservedBits (rsvField c.cmd))
  else match opcodeTable.find? (fun r => r.op == opField c.cmd) with
    | none => .illegal (.reservedOpcode (opField c.cmd))
    | some r =>
      if r.idxMax < (idxField c.cmd).toNat then .illegal (.indexOutOfRange (opField c.cmd) (idxField c.cmd))
      else .command (r.build (idxField c.cmd) c.din)

/-- The 64 bits of a command as the opcode table numbers them: CMD is bits 31..0 and DIN, the later word, bits 63..32
(log entry 12). -/
def commandOfTableWord (nbits w : Nat) : Command :=
  { cmd := BitVec.ofNat 32 (w % 2 ^ nbits)
    din := BitVec.ofNat 32 (w % 2 ^ nbits / 2 ^ 32) }

/-- The command the decoder reads from `nbits` bits `w` numbered as spec/opcode_table.json numbers them; none where it
is ILLEGAL. -/
def decodeTableWord (nbits w : Nat) : Option Instr :=
  match decode (commandOfTableWord nbits w) with
  | .command i => some i
  | .illegal _ => none

/-- The command word with RSV = 0: OP, plus `idx << 8` (30_encoding.md R46, R50). -/
def cmdWord (op : BitVec 8) (idx : BitVec 7) : Word := op.setWidth 32 + (idx.setWidth 32 <<< 8)

/-- The OP of a command (30_encoding.md R50). -/
def Instr.opcode : Instr → BitVec 8
  | .nop => 0x00
  | .init => 0x01
  | .setcv _ _ => 0x02
  | .getcv _ => 0x03
  | .getdig _ => 0x04
  | .rdstat => 0x05
  | .putb _ => 0x10
  | .putw _ => 0x11
  | .clrbuf => 0x12
  | .compress => 0x13
  | .setlen _ _ => 0x20
  | .getlen _ => 0x21
  | .padlen => 0x22
  | .padbyte _ => 0x23
  | .rdk _ => 0x30
  | .rdr _ => 0x31

/-- The DIN word of a command; "DIN is written 0x00000000 where ignored" (30_encoding.md R54). -/
def Instr.dinWord : Instr → Word
  | .nop => 0
  | .init => 0
  | .setcv _ din => din
  | .getcv _ => 0
  | .getdig _ => 0
  | .rdstat => 0
  | .putb byte => byte.setWidth 32
  | .putw din => din
  | .clrbuf => 0
  | .compress => 0
  | .setlen _ din => din
  | .getlen _ => 0
  | .padlen => 0
  | .padbyte _ => 0
  | .rdk _ => 0
  | .rdr _ => 0

/-- The two words of a command (30_encoding.md R46, R49, R50). -/
def encode (i : Instr) : Command := { cmd := cmdWord i.opcode i.index, din := i.dinWord }

end Sys2Proof
end

