-- ==== Sys2Proof/Machine/Port.lean ====
section
/-! DEFINITION. What the port's next transaction asks of the core: the machine's fetch (30_encoding.md R45;
70_reset_and_hazards.md R181, R182). -/

namespace Sys2Proof.Machine

/-- What one step has to do, with the transaction already taken from the port. -/
inductive PortAction where
  /-- No command is waiting: between commands the core "holds its state and does nothing" (60_exceptions.md R176). -/
  | idle (s : State)
  /-- The reset input is asserted (70_reset_and_hazards.md R180, R181). -/
  | reset (s : State)
  /-- A command is presented to a core that was never reset (70_reset_and_hazards.md R182). -/
  | neverReset
  /-- The command word is ILLEGAL (30_encoding.md R51, R52). -/
  | illegal (s : State)
  /-- The command to run. -/
  | run (i : Instr) (s : State)
  deriving DecidableEq, Repr

/-- The action of one command presented while reset is not asserted. -/
def commandAction (c : Command) (s : State) : PortAction :=
  if s.wasReset then
    match decode c with
    | .illegal _ => .illegal s
    | .command i => .run i s
  else .neverReset

/-- The next transaction's action. With reset asserted the command, if any, is not accepted or gets no response and has no
effect (70_reset_and_hazards.md R181). -/
def portAction (s : State) : PortAction :=
  match s.port with
  | [] => .idle s
  | t :: rest =>
    if t.reset then .reset { s with port := rest }
    else match t.command with
      | none => .idle { s with port := rest }
      | some c => commandAction c { s with port := rest }

/-- The port transaction that presents one command with reset not asserted (30_encoding.md R45). -/
def present (c : Command) : PortInput := { reset := false, command := some c }

/-- The port transaction that asserts reset with no command (70_reset_and_hazards.md R180). -/
def resetPulse : PortInput := { reset := true, command := none }

/-- `s` with a command waiting at the port before all others, and past its first reset, so that the next step runs it
(log entry 6). -/
def State.withCommand (s : State) (c : Command) : State :=
  { s with wasReset := true, port := present c :: s.port }

end Sys2Proof.Machine
end

