-- ==== Sys2Proof/Machine/Step.lean ====
section
/-! DEFINITION. One step: one transaction of the port, run to its response (30_encoding.md R45; 20_memory.md R38, R41). -/

namespace Sys2Proof.Machine

/-- One step of the core. -/
def step (s : State) : Host.Outcome State Fault Refusal :=
  match portAction s with
  | .idle s' => .next s'
  | .reset s' => .next (assertReset s')
  | .neverReset => .refused .commandBeforeFirstReset
  | .illegal s' => raise .illegalCommand s'
  | .run i s' => exec i s'

/-- `s` with the command of `nbits` bits `w`, numbered as spec/opcode_table.json numbers them, waiting at the port where
`step` takes its next transaction (log entry 6). -/
def State.withFetchWord (s : State) (nbits w : Nat) : State := s.withCommand (commandOfTableWord nbits w)

end Sys2Proof.Machine
end

