-- ==== Sys2Proof/Machine/HostProcedures.lean ====
section
/-! DEFINITION. What the host does with the core (48_host_procedures.md R140 to R147) and the pseudo-commands of
30_encoding.md R55. Nothing here is hardware (00_scope.md R4): these are command sequences and pure functions, stated so
that the core can be held against the source's acceptance tests. -/

namespace Sys2Proof.Machine

/-! ## Pseudo-commands (30_encoding.md R55) -/

/-- The port transactions that present a sequence of commands, one after another (30_encoding.md R45). -/
def issue (is : List Instr) : List PortInput := is.map fun i => present (encode i)

/-- `LOADCV a, b, c, d`. -/
def loadcv (q : Quad) : List Instr := [.setcv 0 q.a, .setcv 1 q.b, .setcv 2 q.c, .setcv 3 q.d]

/-- `READCV`. -/
def readcv : List Instr := [.getcv 0, .getcv 1, .getcv 2, .getcv 3]

/-- `READDIG`. -/
def readdig : List Instr := (List.range 16).map fun t => .getdig (BitVec.ofNat 7 t)

/-- `PUTBLK w0, …, w15`; the list holds the sixteen words. -/
def putblk (ws : List Word) : List Instr := ws.map Instr.putw

/-- `HASHBLK w0, …, w15`. -/
def hashblk (ws : List Word) : List Instr := putblk ws ++ [.compress]

/-- `SETLEN64 v`. -/
def setlen64 (v : DWord) : List Instr :=
  [.setlen 0 (v.extractLsb' 0 32), .setlen 1 (v.extractLsb' 32 32)]

/-- `RESUME a, b, c, d`: the source's "explicit 'resume from digest' constructor path". -/
def resume (q : Quad) : List Instr := .init :: loadcv q

/-! ## Hashing (R140, R141) -/

/-- Errors the host reports itself; names of 60_exceptions.md R160. -/
inductive HostError where
  /-- `update`'s input length is not a multiple of 64 (R141). -/
  | invalidBlockSize
  /-- A length above LEN_MAX (R147; 41_padding_function.md R94). -/
  | invalidLength
  /-- A digest text that is not exactly 32 hexadecimal characters (R143). -/
  | invalidDigestEncoding
  deriving DecidableEq, Repr

/-- Block t of `p` is `p[64t .. 64t+63]`, t = 0, 1, ..., len(p)/64 − 1 (R140). -/
def blocksOf (p : List Byte) : List (List Byte) :=
  (List.range (p.length / 64)).map fun t => (p.drop (64 * t)).take 64

/-- Compression folded over the blocks of `p` in order: what the core's CV becomes (R140). -/
def foldBlocks (cv : Quad) (p : List Byte) : Quad := (blocksOf p).foldl compress cv

/-- The digest words of a message: its padded form folded from IV (R140). DESIGN CHOICE: it has a value for a message longer
than LEN_MAX too, which R140 does not hash (log entry 16). -/
def md5 (m : List Byte) : Quad := foldBlocks iv (m ++ pad m.length)

/-- "Push the 64 bytes of b by PUTB and/or PUTW; COMPRESS" (R140); here by PUTB alone (log entry 14). -/
def blockCommands (b : List Byte) : List Instr := b.map Instr.putb ++ [.compress]

/-- The commands that push and compress every block of `p` in order (R140). -/
def foldCommands (p : List Byte) : List Instr := (blocksOf p).flatMap blockCommands

/-- The source's `update`: the whole input is refused, before any command, unless its length is a multiple of 64 (R141). -/
def update (p : List Byte) : Except HostError (List Instr) :=
  if p.length % 64 ≠ 0 then .error .invalidBlockSize else .ok (foldCommands p)

/-- The hashing procedure for a message of at most LEN_MAX bytes (R140). DESIGN CHOICE: the host computes pad(n) itself and
issues no padding command; R140 also lets it read pad(n) from the core (log entry 14). -/
def hashCommands (m : List Byte) : List Instr :=
  .init :: (foldCommands (m ++ pad m.length) ++ readdig)

/-- The commands that read `pad(n)` from the core: SETLEN64 n, PADLEN, PADBYTE 0 to PADLEN − 1 (R140, R144). -/
def padCommands (n : Nat) : List Instr :=
  setlen64 (BitVec.ofNat 64 n) ++ [.padlen] ++ (List.range (padLen n)).map fun k => .padbyte (BitVec.ofNat 7 k)

/-! ## Digest text (R142, R143) -/

/-- The 16 digest bytes of a state (20_memory.md R33). -/
def digestBytes (q : Quad) : List Byte := [q.a, q.b, q.c, q.d].flatMap wordLanes

/-- The lower-case hexadecimal digit of a number below 16 (R142). -/
def hexDigit (n : Nat) : Char :=
  ['0', '1', '2', '3', '4', '5', '6', '7', '8', '9', 'a', 'b', 'c', 'd', 'e', 'f'].getD n '0'

/-- The two digits of a byte, the high nibble first (R142; 93_implementation_defined.md G4). -/
def byteText (b : Byte) : List Char := [hexDigit (b.toNat / 16), hexDigit (b.toNat % 16)]

/-- The digest text: 32 lower-case hexadecimal characters (R142). -/
def digestText (q : Quad) : List Char := (digestBytes q).flatMap byteText

/-- The value of a hexadecimal digit; upper case only where the host accepts it (R143). -/
def hexValue? (c : Char) : Option Nat :=
  if '0'.toNat ≤ c.toNat ∧ c.toNat ≤ '9'.toNat then some (c.toNat - '0'.toNat)
  else if 'a'.toNat ≤ c.toNat ∧ c.toNat ≤ 'f'.toNat then some (c.toNat - 'a'.toNat + 10)
  else if 'A'.toNat ≤ c.toNat ∧ c.toNat ≤ 'F'.toNat then
    if Config.hostAcceptsUpperHex then some (c.toNat - 'A'.toNat + 10) else none
  else none

/-- The bytes of a hexadecimal text, the high nibble first. -/
def textBytes? : List Char → Option (List Byte)
  | [] => some []
  | [_] => none
  | c1 :: c2 :: rest =>
    match hexValue? c1, hexValue? c2, textBytes? rest with
    | some h, some l, some bs => some (BitVec.ofNat 8 (16 * h + l) :: bs)
    | _, _, _ => none

/-- The words of a known digest's text, or InvalidDigestEncoding (R143). -/
def digestWords (text : List Char) : Except HostError Quad :=
  if text.length ≠ 32 then .error .invalidDigestEncoding
  else match (textBytes? text).map messageWords with
    | some [a, b, c, d] => .ok ⟨a, b, c, d⟩
    | _ => .error .invalidDigestEncoding

/-! ## Length extension (R144 to R147) -/

/-- `forged = pad(L) ++ X`: what the attacker appends to the message of length L (R144 steps 1 and 2). -/
def forged (knownLen : Nat) (suffix : List Byte) : List Byte := pad knownLen ++ suffix

/-- `T + len(X)`: the length of the forged whole message (R144 steps 3 and 5). -/
def forgedLen (knownLen : Nat) (suffix : List Byte) : Nat := knownLen + padLen knownLen + suffix.length

/-- The blocks the attack compresses: `X ++ pad(T + len(X))` (R144 steps 5 and 6). -/
def attackBlocks (knownLen : Nat) (suffix : List Byte) : List Byte :=
  suffix ++ pad (forgedLen knownLen suffix)

/-- The commands of R144: pad(L) read from the core, RESUME with the known digest's words, the new padding read, the
blocks pushed and compressed, the digest read. -/
def attackCommands (knownLen : Nat) (known : Quad) (suffix : List Byte) : List Instr :=
  padCommands knownLen ++ resume known ++ padCommands (forgedLen knownLen suffix) ++
    foldCommands (attackBlocks knownLen suffix) ++ readdig

/-- The attack: the forged suffix and the commands to issue. Its only failures are the input checks (R147), made before
any command is issued (R143); the digest text is checked first (log entry 14). -/
def attack (knownLen : Nat) (text : List Char) (suffix : List Byte) :
    Except HostError (List Byte × List Instr) :=
  match digestWords text with
  | .error e => .error e
  | .ok known =>
    if lenMax < forgedLen knownLen suffix then .error .invalidLength
    else .ok (forged knownLen suffix, attackCommands knownLen known suffix)

end Sys2Proof.Machine
end

