-- ==== Sys2Proof/Machine/System.lean ====
section
/-! DEFINITION. A system of several cores that share nothing (60_exceptions.md R174; 20_memory.md R41). The number of cores
is an argument (92_eei_decisions.md D21). -/

namespace Sys2Proof.Machine

/-- `n` cores, each with its own state (60_exceptions.md R174). -/
abbrev System (n : Nat) := Vector State n

/-- A platform's system: it holds `N_INSTANCES` cores (60_exceptions.md R174). -/
abbrev PlatformSystem := System Config.nInstances

/-- Every core right after reset. -/
def System.reset (n : Nat) : System n := Vector.replicate n State.reset

/-- One step of core `k`; no order between cores exists (20_memory.md R41), so which core steps is the caller's. -/
def System.stepAt {n : Nat} (sys : System n) (k : Fin n) : Host.Outcome (System n) Fault Refusal :=
  match step sys[k] with
  | .next t => .next (sys.set k t)
  | .fault r => .fault r
  | .refused r => .refused r

end Sys2Proof.Machine
end

