-- ==== Sys2Proof/Safety.lean ====
section
/-! DEFINITION. What counts as a safe run, in the terms the statements use: the invariants of 10_state.md R23 and R24, the
canonical form of BUF, the state a command can change, and the responses. -/

namespace Sys2Proof.Machine

/-- The two invariants of 10_state.md R23: `0 ≤ BCNT ≤ 64`, and LOADABLE = 1 implies BCNT = 0. -/
abbrev State.CountInv (s : State) : Prop := s.bcnt.toNat ≤ 64 ∧ (s.loadable = true → s.bcnt = 0)

/-- Every byte below BCNT has been written since reset (10_state.md R24). -/
abbrev State.FilledInv (s : State) : Prop := ∀ k < s.bcnt.toNat, (s.buf.read k).isSome

/-- The invariant of every state a run reaches: 10_state.md R23, R24, and BUF's canonical form. -/
abbrev State.Inv (s : State) : Prop := s.CountInv ∧ s.FilledInv ∧ s.buf.wf

/-- Two states agree on all of 10_state.md R10. -/
abbrev State.SameCore (s t : State) : Prop :=
  t.cv = s.cv ∧ t.buf = s.buf ∧ t.bcnt = s.bcnt ∧ t.loadable = s.loadable ∧ t.len = s.len

/-- What no command touches: the reset history and the transactions still to come. -/
abbrev State.SamePort (s t : State) : Prop := t.wasReset = s.wasReset ∧ t.port = s.port

/-- Two states differ at most in BUF bytes at or beyond BCNT, which no command observes (10_state.md R24). -/
abbrev State.AgreeBelowCount (s t : State) : Prop :=
  t = { s with buf := t.buf } ∧ ∀ k < s.bcnt.toNat, t.buf.read k = s.buf.read k

/-- The buffer holds exactly this whole block: 64 bytes, each readable at its position (10_state.md R13). -/
abbrev State.HoldsBlock (s : State) (blk : List Byte) : Prop :=
  blk.length = 64 ∧ ∀ k < 64, s.buf.read k = blk[k]?

/-- `k` steps, stopping at the first fault or refusal: a run of k port transactions (70_reset_and_hazards.md R188). It is
`Host.Core.run` of the core, written at the model's own types (Laws/Port.lean proves them equal). -/
def runSteps : Nat → State → Host.Outcome State Fault Refusal
  | 0, s => .next s
  | k + 1, s =>
    match step s with
    | .next t => runSteps k t
    | .fault r => .fault r
    | .refused r => .refused r

end Sys2Proof.Machine
end

