-- ==== Sys2Proof/Certificates/Slice0/Obligations.lean ====
section
/-! DEFINITION. The statements for the provers. Each docstring names the rule of spec/ it formalises. Every statement about
a next state speaks of the responses as 70_reset_and_hazards.md R188 does: the list of responses of the run, in order. -/

open Sys2Proof
open Sys2Proof.Machine

/-! ## Encoding (30_encoding.md) -/

/-- Decoding the words of a well-formed command gives it back, for every command and every operand value its encoding
admits (30_encoding.md R46, R48 to R51). -/
def Obligations.DecodeOfEncodeIsTheCommand : Prop :=
  ∀ i : Instr, i.WellFormed → decode (encode i) = .command i

/-- Two command words decode to the same command only if they are the same: a command that is decoded is well-formed, its
encoding has the same command word, and the DIN bits it uses are those presented (30_encoding.md R46, R49, R51). -/
def Obligations.EveryLegalWordHasOneMeaning : Prop :=
  ∀ (c : Command) (i : Instr), decode c = .command i →
    i.WellFormed ∧ (encode i).cmd = c.cmd ∧
    (∀ idx d, i = .setcv idx d → d = c.din) ∧ (∀ idx d, i = .setlen idx d → d = c.din) ∧
    (∀ d, i = .putw d → d = c.din) ∧ (∀ b, i = .putb b → b.toNat = c.din.toNat % 256)

/-- 30_encoding.md R52: the illegal encodings are exactly those with CMD[31:15] ≠ 0, a reserved OP, or an IDX above the
range of a listed OP; each, presented to the core, answers (ILLEGAL_COMMAND, 0) and changes no state. -/
def Obligations.IllegalEncodingsAreExactlyThese : Prop :=
  ∀ c : Command,
    let op := c.cmd.toNat % 256
    let idx := c.cmd.toNat / 256 % 128
    ((∃ why, decode c = .illegal why) ↔
      c.cmd.toNat / 2 ^ 15 ≠ 0 ∨
      (0x06 ≤ op ∧ op ≤ 0x0F) ∨ (0x14 ≤ op ∧ op ≤ 0x1F) ∨ (0x24 ≤ op ∧ op ≤ 0x2F) ∨ 0x32 ≤ op ∨
      (op ∈ [0x00, 0x01, 0x05, 0x10, 0x11, 0x12, 0x13, 0x22] ∧ 0 < idx) ∨
      (op ∈ [0x20, 0x21] ∧ 1 < idx) ∨ (op ∈ [0x02, 0x03] ∧ 3 < idx) ∨
      (op = 0x04 ∧ 15 < idx) ∨ (op = 0x23 ∧ 71 < idx) ∨ (op ∈ [0x30, 0x31] ∧ 63 < idx)) ∧
    (∀ why, decode c = .illegal why → ∀ s : State, s.wasReset = true →
      step { s with port := present c :: s.port } = .next (s.answer ⟨.illegalCommand, 0⟩))

/-- 30_encoding.md R49: SETCV, PUTW and SETLEN use all of DIN; PUTB uses `DIN[7:0]`; every other bit of DIN is ignored: it
never changes what a command word decodes to, never makes it illegal, and, presented to any state, never changes the step's
effect or response. (That the decoder is where ignored bits are dropped is log entry 11.) -/
def Obligations.IgnoredDinBitsChangeNothing : Prop :=
  ∀ (cmd din din' : Word),
    (∀ idx d, decode ⟨cmd, din⟩ = .command (.setcv idx d) → d = din) ∧
    (∀ d, decode ⟨cmd, din⟩ = .command (.putw d) → d = din) ∧
    (∀ idx d, decode ⟨cmd, din⟩ = .command (.setlen idx d) → d = din) ∧
    (∀ b, decode ⟨cmd, din⟩ = .command (.putb b) → b = BitVec.ofNat 8 (din.toNat % 256)) ∧
    (∀ why, decode ⟨cmd, din⟩ = .illegal why → decode ⟨cmd, din'⟩ = .illegal why) ∧
    ((cmd.toNat % 256 = 0x10 ∧ din.toNat % 256 = din'.toNat % 256) ∨ cmd.toNat % 256 ∉ [0x02, 0x10, 0x11, 0x20] →
      decode ⟨cmd, din⟩ = decode ⟨cmd, din'⟩ ∧
      ∀ s : State, step { s with port := present ⟨cmd, din⟩ :: s.port } =
        step { s with port := present ⟨cmd, din'⟩ :: s.port })

/-- Words written out from 30_encoding.md R50 and R54 decode to the commands they stand for: one or two of each family. -/
def Obligations.SampleWordsDecodeAsWritten : Prop :=
  decode ⟨0x00000202, 0x98BADCFE⟩ = .command (.setcv 2 0x98BADCFE) ∧
  decode ⟨0x00000F04, 0⟩ = .command (.getdig 15) ∧
  decode ⟨0x00000010, 0xFFFFFF41⟩ = .command (.putb 0x41) ∧
  decode ⟨0x00000011, 0x80636261⟩ = .command (.putw 0x80636261) ∧
  decode ⟨0x00004723, 0⟩ = .command (.padbyte 71) ∧
  decode ⟨0x00003F31, 0⟩ = .command (.rdr 63)

/-! ## The port and reset (30_encoding.md, 70_reset_and_hazards.md) -/

/-- When the next transaction presents a command that decodes to `i`, one step is `exec i`, with the transaction taken from
the port; what the port still holds is left as it was. `withFetchWord` places such a transaction. -/
def Obligations.StepRunsTheDecodedCommand : Prop :=
  ∀ (s : State) (c : Command) (rest : List PortInput) (i : Instr),
    s.wasReset = true → s.port = ⟨false, some c⟩ :: rest → decode c = .command i →
    step s = exec i { s with port := rest }

/-- Presenting the encoding of any command term, well-formed or not, runs as `exec` says: for an ill-formed term the
decoder's refusal and the meaning's answer agree (30_encoding.md R51, R52; log entry 9). -/
def Obligations.PresentedEncodingRunsAsExec : Prop :=
  ∀ (s : State) (i : Instr), s.wasReset = true →
    step { s with port := present (encode i) :: s.port } = exec i s

/-- Between commands the core holds its state and does nothing (60_exceptions.md R176), with the model's own reading of an
empty port or an empty transaction as "no command" (log entry 1). -/
def Obligations.NoCommandNoChange : Prop :=
  ∀ s : State, (s.port = [] → step s = .next s) ∧
    (∀ rest, s.port = ⟨false, none⟩ :: rest → step s = .next { s with port := rest })

/-- 70_reset_and_hazards.md R182: a command presented before the first reset has no defined effect; the model refuses it. -/
def Obligations.NoCommandBeforeTheFirstReset : Prop :=
  ∀ (s : State) (c : Command) (rest : List PortInput),
    s.wasReset = false → s.port = ⟨false, some c⟩ :: rest → step s = .refused .commandBeforeFirstReset

/-- 10_state.md R22: the values after reset that the spec gives (it gives none for BUF). -/
def Obligations.ResetStateHoldsTheGivenValues : Prop :=
  State.reset.cv = ⟨0x67452301, 0xEFCDAB89, 0x98BADCFE, 0x10325476⟩ ∧ State.reset.bcnt = 0 ∧
  State.reset.loadable = true ∧ State.reset.len = 0

/-- 70_reset_and_hazards.md R181: with reset asserted, a command of the same transaction has no effect and gets no response,
and the state is that of R180, from any state, one that was never reset included. That the earlier responses and the later
transactions stay is the model's choice (log entry 3). -/
def Obligations.AssertedResetOverridesTheCommand : Prop :=
  ∀ (s : State) (command : Option Command) (rest : List PortInput), s.port = ⟨true, command⟩ :: rest →
    ∃ t, step s = .next t ∧ t.cv = ⟨0x67452301, 0xEFCDAB89, 0x98BADCFE, 0x10325476⟩ ∧ t.bcnt = 0 ∧
      t.loadable = true ∧ t.len = 0 ∧ t.wasReset = true ∧ t.responses = s.responses ∧ t.port = rest

/-! ## State commands (42_state_commands.md) -/

/-- 42_state_commands.md R100. -/
def Obligations.NopAnswersOkAndChangesNothing : Prop :=
  ∀ (s : State) (din : Word),
    (∀ cmd, decode ⟨cmd, din⟩ = .command .nop ↔ cmd = 0x00000000) ∧ exec .nop s = .next (s.answer ⟨.ok, 0⟩)

/-- 42_state_commands.md R101. -/
def Obligations.InitLoadsIvAndOpensTheGate : Prop :=
  ∀ (s : State) (din : Word),
    (∀ cmd, decode ⟨cmd, din⟩ = .command .init ↔ cmd = 0x00000001) ∧
    exec .init s = .next (State.answer
      { s with cv := ⟨0x67452301, 0xEFCDAB89, 0x98BADCFE, 0x10325476⟩, bcnt := 0, loadable := true } ⟨.ok, 0⟩)

/-- 42_state_commands.md R102: SETCV overwrites exactly the selected word while LOADABLE is 1, and is STATE_LOCKED with no
change while it is 0; an index above 3 is ILLEGAL_COMMAND whatever LOADABLE is. -/
def Obligations.SetcvOverwritesOneWordOrIsLocked : Prop :=
  ∀ (s : State) (idx : BitVec 7) (din : Word),
    (encode (.setcv idx din)).cmd.toNat = 0x00000002 + 256 * idx.toNat ∧
    (3 < idx.toNat → exec (.setcv idx din) s = .next (s.answer ⟨.illegalCommand, 0⟩)) ∧
    (idx.toNat ≤ 3 → s.loadable = false → exec (.setcv idx din) s = .next (s.answer ⟨.stateLocked, 0⟩)) ∧
    (s.loadable = true →
      (idx = 0 → exec (.setcv idx din) s = .next (State.answer { s with cv := { s.cv with a := din } } ⟨.ok, 0⟩)) ∧
      (idx = 1 → exec (.setcv idx din) s = .next (State.answer { s with cv := { s.cv with b := din } } ⟨.ok, 0⟩)) ∧
      (idx = 2 → exec (.setcv idx din) s = .next (State.answer { s with cv := { s.cv with c := din } } ⟨.ok, 0⟩)) ∧
      (idx = 3 → exec (.setcv idx din) s = .next (State.answer { s with cv := { s.cv with d := din } } ⟨.ok, 0⟩)))

/-- 42_state_commands.md R103. -/
def Obligations.GetcvAnswersOneChainingWord : Prop :=
  ∀ (s : State) (idx : BitVec 7),
    (encode (.getcv idx)).cmd.toNat = 0x00000003 + 256 * idx.toNat ∧
    (idx = 0 → exec (.getcv idx) s = .next (s.answer ⟨.ok, s.cv.a⟩)) ∧
    (idx = 1 → exec (.getcv idx) s = .next (s.answer ⟨.ok, s.cv.b⟩)) ∧
    (idx = 2 → exec (.getcv idx) s = .next (s.answer ⟨.ok, s.cv.c⟩)) ∧
    (idx = 3 → exec (.getcv idx) s = .next (s.answer ⟨.ok, s.cv.d⟩)) ∧
    (3 < idx.toNat → exec (.getcv idx) s = .next (s.answer ⟨.illegalCommand, 0⟩))

/-- 42_state_commands.md R105 and the byte order of 20_memory.md R33: GETDIG 4j + k answers byte k of word j,
zero-extended. -/
def Obligations.GetdigAnswersOneDigestByte : Prop :=
  ∀ (s : State) (idx : BitVec 7),
    (encode (.getdig idx)).cmd.toNat = 0x00000004 + 256 * idx.toNat ∧
    (∀ w, [s.cv.a, s.cv.b, s.cv.c, s.cv.d][idx.toNat / 4]? = some w →
      exec (.getdig idx) s =
        .next (s.answer ⟨.ok, BitVec.ofNat 32 (w.toNat / 2 ^ (8 * (idx.toNat % 4)) % 256)⟩)) ∧
    (15 < idx.toNat → exec (.getdig idx) s = .next (s.answer ⟨.illegalCommand, 0⟩))

/-- 42_state_commands.md R106: STAT is BCNT in [6:0] and LOADABLE in [8], with zeros elsewhere. -/
def Obligations.RdstatAnswersTheStatusView : Prop :=
  ∀ (s : State) (din : Word),
    (∀ cmd, decode ⟨cmd, din⟩ = .command .rdstat ↔ cmd = 0x00000005) ∧
    exec .rdstat s = .next (s.answer
      ⟨.ok, BitVec.ofNat 32 (s.bcnt.toNat + 256 * (if s.loadable then 1 else 0))⟩)

/-! ## Block commands (43_block_commands.md) -/

/-- 43_block_commands.md R110. -/
def Obligations.PutbAppendsOneByteOrIsRefused : Prop :=
  ∀ (s : State) (byte : Byte) (din : Word),
    (∀ cmd b, decode ⟨cmd, din⟩ = .command (.putb b) ↔ cmd = 0x00000010 ∧ b = BitVec.ofNat 8 (din.toNat % 256)) ∧
    (s.bcnt = 64 → exec (.putb byte) s = .next (s.answer ⟨.invalidBlockSize, 0⟩)) ∧
    (s.bcnt.toNat < 64 → exec (.putb byte) s = .next (State.answer
      { s with buf := s.buf.write s.bcnt.toNat byte, bcnt := s.bcnt + 1, loadable := false } ⟨.ok, 0⟩))

/-- 43_block_commands.md R111: four bytes, least significant first, at BCNT to BCNT + 3, or none of them. -/
def Obligations.PutwAppendsFourBytesOrIsRefused : Prop :=
  ∀ (s : State) (din : Word),
    (∀ cmd d, decode ⟨cmd, din⟩ = .command (.putw d) ↔ cmd = 0x00000011 ∧ d = din) ∧
    (60 < s.bcnt.toNat → exec (.putw din) s = .next (s.answer ⟨.invalidBlockSize, 0⟩)) ∧
    (s.bcnt.toNat ≤ 60 → exec (.putw din) s = .next (State.answer
      { s with
        buf := (((s.buf.write s.bcnt.toNat (BitVec.ofNat 8 (din.toNat % 256))).write
          (s.bcnt.toNat + 1) (BitVec.ofNat 8 (din.toNat / 2 ^ 8 % 256))).write
          (s.bcnt.toNat + 2) (BitVec.ofNat 8 (din.toNat / 2 ^ 16 % 256))).write
          (s.bcnt.toNat + 3) (BitVec.ofNat 8 (din.toNat / 2 ^ 24))
        bcnt := s.bcnt + 4, loadable := false } ⟨.ok, 0⟩))

/-- The frame of PUTB and PUTW on BUF: when either completes with OK, the bytes stored stand at the positions from the old
BCNT upwards, and every other position reads as before; when it is refused, every position does (10_state.md R13;
43_block_commands.md R110, R111). -/
def Obligations.AppendsStoreExactlyTheirBytes : Prop :=
  ∀ (s t : State),
    (∀ byte, s.bcnt.toNat < 64 → exec (.putb byte) s = .next t →
      t.buf.read s.bcnt.toNat = some byte ∧ ∀ k, k ≠ s.bcnt.toNat → t.buf.read k = s.buf.read k) ∧
    (∀ din : Word, s.bcnt.toNat ≤ 60 → exec (.putw din) s = .next t →
      (∀ j < 4, t.buf.read (s.bcnt.toNat + j) = some (BitVec.ofNat 8 (din.toNat / 2 ^ (8 * j) % 256))) ∧
      ∀ k, (k < s.bcnt.toNat ∨ s.bcnt.toNat + 4 ≤ k) → t.buf.read k = s.buf.read k) ∧
    (∀ byte, 64 ≤ s.bcnt.toNat → exec (.putb byte) s = .next t → ∀ k, t.buf.read k = s.buf.read k) ∧
    (∀ din, 60 < s.bcnt.toNat → exec (.putw din) s = .next t → ∀ k, t.buf.read k = s.buf.read k)

/-- 20_memory.md R32 with R31: a PUTW at a BCNT that is a multiple of 4 and at most 60 stores a word that the block decode
reads back unchanged as `W[BCNT/4]`, whatever else the block holds. -/
def Obligations.AlignedPutwIsReadBackAsItsMessageWord : Prop :=
  ∀ (s t u : State) (din : Word) (blk : List Byte),
    s.bcnt.toNat % 4 = 0 → s.bcnt.toNat ≤ 60 → exec (.putw din) s = .next t →
    u.HoldsBlock blk → (∀ j < 4, u.buf.read (s.bcnt.toNat + j) = t.buf.read (s.bcnt.toNat + j)) →
    (messageWords blk)[s.bcnt.toNat / 4]? = some din

/-- 20_memory.md R31 and 00_scope.md R7: word j of a 64-byte block is the little-endian reading of its bytes 4j to 4j + 3. -/
def Obligations.MessageWordsAreLittleEndian : Prop :=
  ∀ (blk : List Byte) (j : Nat) (b0 b1 b2 b3 : Byte), blk.length = 64 → j < 16 →
    blk[4 * j]? = some b0 → blk[4 * j + 1]? = some b1 → blk[4 * j + 2]? = some b2 → blk[4 * j + 3]? = some b3 →
    ∃ w, (messageWords blk)[j]? = some w ∧
      w.toNat = b0.toNat + 256 * b1.toNat + 65536 * b2.toNat + 16777216 * b3.toNat

/-- 43_block_commands.md R112. -/
def Obligations.ClrbufOnlyClearsTheCount : Prop :=
  ∀ (s : State) (din : Word),
    (∀ cmd, decode ⟨cmd, din⟩ = .command .clrbuf ↔ cmd = 0x00000012) ∧
    exec .clrbuf s = .next (State.answer { s with bcnt := 0 } ⟨.ok, 0⟩)

/-- 43_block_commands.md R113: with BCNT = 64 and the buffer holding a block, CV becomes Compress(CV, block), BCNT and
LOADABLE become 0 and nothing else changes; with any other BCNT it is INVALID_BLOCK_SIZE with no change. -/
def Obligations.CompressFoldsTheBlockOrIsRefused : Prop :=
  ∀ (s : State) (din : Word),
    (∀ cmd, decode ⟨cmd, din⟩ = .command .compress ↔ cmd = 0x00000013) ∧
    (s.bcnt ≠ 64 → exec .compress s = .next (s.answer ⟨.invalidBlockSize, 0⟩)) ∧
    (∀ blk, s.bcnt = 64 → s.HoldsBlock blk → exec .compress s = .next (State.answer
      { s with cv := compress s.cv blk, bcnt := 0, loadable := false } ⟨.ok, 0⟩))

/-- COMPRESS stops only where a byte it reads has never been written, which 10_state.md R24 allows a model to do and calls
unreachable (log entry 4). -/
def Obligations.CompressFaultsExactlyOnAnUnwrittenByte : Prop :=
  ∀ s : State, exec .compress s = .fault .unwrittenBufferByte ↔
    s.bcnt = 64 ∧ ∃ k < 64, s.buf.read k = none

/-! ## The compression function (40_round_function.md) -/

/-- 40_round_function.md R73, R74: the round function and the message index of each range of steps; within each round group
the index takes each value 0..15 exactly once (this last the spec derives). -/
def Obligations.RoundFunctionAndIndexByStepRange : Prop :=
  (∀ (i : Nat) (b c d : Word),
    (i ≤ 15 → roundFun i b c d = (b &&& c) ||| (~~~b &&& d) ∧ msgIndex i = i) ∧
    (16 ≤ i → i ≤ 31 → roundFun i b c d = (b &&& d) ||| (c &&& ~~~d) ∧ msgIndex i = (5 * i + 1) % 16) ∧
    (32 ≤ i → i ≤ 47 → roundFun i b c d = b ^^^ c ^^^ d ∧ msgIndex i = (3 * i + 5) % 16) ∧
    (48 ≤ i → i ≤ 63 → roundFun i b c d = c ^^^ (b ||| ~~~d) ∧ msgIndex i = 7 * i % 16)) ∧
  ∀ r < 4, ∀ j < 16, ∃! k, k < 16 ∧ msgIndex (16 * r + k) = j

/-- 40_round_function.md R75 in exact integers: with the message word `m` = `W[g(i)]`, the sum wraps once modulo 2^32, the
rotation by R[i] moves the top bits to the bottom, and the quad turns. -/
def Obligations.StepInExactIntegers : Prop :=
  ∀ (i : Nat) (m : Word) (q : Quad), i < 64 → ∃ k r, kTable[i]? = some k ∧ rTable[i]? = some r ∧
    (let s := (q.a.toNat + (roundFun i q.b q.c q.d).toNat + k.toNat + m.toNat) % 2 ^ 32
     let t := mixStep i m q
     t.a = q.d ∧ t.c = q.b ∧ t.d = q.c ∧
     t.b.toNat = (q.b.toNat + (s * 2 ^ r % 2 ^ 32 + s / 2 ^ (32 - r))) % 2 ^ 32)

/-- For a fixed block the 64 steps lose nothing: two different working quads end differently (a consequence of
40_round_function.md R75: each step can be undone). -/
def Obligations.MixStepsAreInjective : Prop :=
  ∀ (w : List Word) (q q' : Quad), mixSteps w q = mixSteps w q' → q = q'

/-- 40_round_function.md R76: compression of a 64-byte block is the 64 steps in increasing order from the incoming state, step
i with the message word `W[g(i)]` of the block, then the feed-forward into it word by word. -/
def Obligations.CompressionIsStepsThenFeedForward : Prop :=
  ∀ (cv : Quad) (blk : List Byte), blk.length = 64 → ∃ q : Nat → Quad, q 0 = cv ∧
    (∀ i < 64, ∃ b0 b1 b2 b3 m, blk[4 * msgIndex i]? = some b0 ∧ blk[4 * msgIndex i + 1]? = some b1 ∧
      blk[4 * msgIndex i + 2]? = some b2 ∧ blk[4 * msgIndex i + 3]? = some b3 ∧
      m = le32 b0 b1 b2 b3 ∧ q (i + 1) = mixStep i m (q i)) ∧
    (compress cv blk).a.toNat = (cv.a.toNat + (q 64).a.toNat) % 2 ^ 32 ∧
    (compress cv blk).b.toNat = (cv.b.toNat + (q 64).b.toNat) % 2 ^ 32 ∧
    (compress cv blk).c.toNat = (cv.c.toNat + (q 64).c.toNat) % 2 ^ 32 ∧
    (compress cv blk).d.toNat = (cv.d.toNat + (q 64).d.toNat) % 2 ^ 32

/-! ## Padding commands and functions (44_padding_commands.md, 41_padding_function.md) -/

/-- 44_padding_commands.md R120. -/
def Obligations.SetlenWritesOneHalf : Prop :=
  ∀ (s : State) (idx : BitVec 7) (din : Word),
    (encode (.setlen idx din)).cmd.toNat = 0x00000020 + 256 * idx.toNat ∧
    (idx = 0 → exec (.setlen idx din) s = .next (State.answer
      { s with len := BitVec.ofNat 64 (2 ^ 32 * (s.len.toNat / 2 ^ 32) + din.toNat) } ⟨.ok, 0⟩)) ∧
    (idx = 1 → exec (.setlen idx din) s = .next (State.answer
      { s with len := BitVec.ofNat 64 (2 ^ 32 * din.toNat + s.len.toNat % 2 ^ 32) } ⟨.ok, 0⟩)) ∧
    (1 < idx.toNat → exec (.setlen idx din) s = .next (s.answer ⟨.illegalCommand, 0⟩))

/-- 44_padding_commands.md R121. -/
def Obligations.GetlenAnswersOneHalf : Prop :=
  ∀ (s : State) (idx : BitVec 7),
    (encode (.getlen idx)).cmd.toNat = 0x00000021 + 256 * idx.toNat ∧
    (idx = 0 → exec (.getlen idx) s = .next (s.answer ⟨.ok, BitVec.ofNat 32 (s.len.toNat % 2 ^ 32)⟩)) ∧
    (idx = 1 → exec (.getlen idx) s = .next (s.answer ⟨.ok, BitVec.ofNat 32 (s.len.toNat / 2 ^ 32)⟩)) ∧
    (1 < idx.toNat → exec (.getlen idx) s = .next (s.answer ⟨.illegalCommand, 0⟩))

/-- 44_padding_commands.md R122. -/
def Obligations.PadlenAnswersThePaddingLength : Prop :=
  ∀ (s : State) (din : Word),
    (∀ cmd, decode ⟨cmd, din⟩ = .command .padlen ↔ cmd = 0x00000022) ∧
    (2 ^ 61 - 1 < s.len.toNat → exec .padlen s = .next (s.answer ⟨.invalidLength, 0⟩)) ∧
    (s.len.toNat ≤ 2 ^ 61 - 1 →
      exec .padlen s = .next (s.answer ⟨.ok, BitVec.ofInt 32 (9 + (55 - (s.len.toNat : Int)) % 64)⟩))

/-- 44_padding_commands.md R123 with 41_padding_function.md R93: the byte at each position of the padding, and the three
refusals in their order. -/
def Obligations.PadbyteAnswersOnePaddingByte : Prop :=
  ∀ (s : State) (idx : BitVec 7),
    let n := s.len.toNat
    let z := ((55 - (n : Int)) % 64).toNat
    let k := idx.toNat
    (encode (.padbyte idx)).cmd.toNat = 0x00000023 + 256 * k ∧
    (71 < k → exec (.padbyte idx) s = .next (s.answer ⟨.illegalCommand, 0⟩)) ∧
    (k ≤ 71 → 2 ^ 61 - 1 < n → exec (.padbyte idx) s = .next (s.answer ⟨.invalidLength, 0⟩)) ∧
    (n ≤ 2 ^ 61 - 1 →
      (9 + z ≤ k → exec (.padbyte idx) s = .next (s.answer ⟨.illegalCommand, 0⟩)) ∧
      (k = 0 → exec (.padbyte idx) s = .next (s.answer ⟨.ok, 0x80⟩)) ∧
      (1 ≤ k → k ≤ z → exec (.padbyte idx) s = .next (s.answer ⟨.ok, 0⟩)) ∧
      (∀ j < 8, k = z + 1 + j →
        exec (.padbyte idx) s = .next (s.answer ⟨.ok, BitVec.ofNat 32 (8 * n / 2 ^ (8 * j) % 256)⟩)))

/-- The padding lengths of 41_padding_function.md R95 items 1 to 4, for every message length (the spec derives them
up to LEN_MAX; above it this is the model's own extension, log entry 16). -/
def Obligations.PaddedLengthIsWholeBlocks : Prop :=
  ∀ n : Nat, (n + padLen n) % 64 = 0 ∧ 0 < n + padLen n ∧ 9 ≤ padLen n ∧ padLen n ≤ 72 ∧
    (padLen n = 72 ↔ n % 64 = 56) ∧ (padLen n = 9 ↔ n % 64 = 55) ∧
    (n % 64 ≤ 55 → n + padLen n = 64 * (n / 64 + 1)) ∧ (56 ≤ n % 64 → n + padLen n = 64 * (n / 64 + 2))

/-- 41_padding_function.md R90, R91: pad(n) has PadLen(n) bytes, no shorter padding of the form marker, zeros, 8-byte length
reaches a multiple of 64, and its bytes are PadByte(n, k) in order. Above LEN_MAX this is the model's own extension (log
entry 16). -/
def Obligations.PadBytesInOrderAreThePadding : Prop :=
  ∀ n : Nat, (pad n).length = padLen n ∧ (∀ z, (n + (1 + z + 8)) % 64 = 0 → padLen n ≤ 1 + z + 8) ∧
    ∀ k, padByte? n k = (pad n)[k]?

/-- 41_padding_function.md R92: for n up to LEN_MAX the last eight bytes of pad(n), read little-endian, are exactly 8n, with
no truncation. -/
def Obligations.LengthFieldHoldsTheBitLength : Prop :=
  ∀ n : Nat, n ≤ 2 ^ 61 - 1 → (pad n).length = zeroFill n + 1 + 8 ∧ ∃ b : Fin 8 → Byte,
    (∀ j : Fin 8, (pad n)[zeroFill n + 1 + j.val]? = some (b j)) ∧
    8 * n = (b 0).toNat + 2 ^ 8 * (b 1).toNat + 2 ^ 16 * (b 2).toNat + 2 ^ 24 * (b 3).toNat +
      2 ^ 32 * (b 4).toNat + 2 ^ 40 * (b 5).toNat + 2 ^ 48 * (b 6).toNat + 2 ^ 56 * (b 7).toNat

/-! ## Table commands (45_table_commands.md) -/

/-- 45_table_commands.md R130, over the 64 literal values of 40_round_function.md R70 written out here, so that the model's
own table and RDK's answer are both held to them. -/
def Obligations.RdkAnswersOneConstant : Prop :=
  ∀ (s : State) (idx : BitVec 7),
    (encode (.rdk idx)).cmd.toNat = 0x00000030 + 256 * idx.toNat ∧ kTable.length = 64 ∧
    (63 < idx.toNat → exec (.rdk idx) s = .next (s.answer ⟨.illegalCommand, 0⟩)) ∧
    (idx.toNat ≤ 63 → ∃ k : Word, (
       [0xD76AA478, 0xE8C7B756, 0x242070DB, 0xC1BDCEEE,
        0xF57C0FAF, 0x4787C62A, 0xA8304613, 0xFD469501,
        0x698098D8, 0x8B44F7AF, 0xFFFF5BB1, 0x895CD7BE,
        0x6B901122, 0xFD987193, 0xA679438E, 0x49B40821] ++
       [0xF61E2562, 0xC040B340, 0x265E5A51, 0xE9B6C7AA,
        0xD62F105D, 0x02441453, 0xD8A1E681, 0xE7D3FBC8,
        0x21E1CDE6, 0xC33707D6, 0xF4D50D87, 0x455A14ED,
        0xA9E3E905, 0xFCEFA3F8, 0x676F02D9, 0x8D2A4C8A] ++
       [0xFFFA3942, 0x8771F681, 0x6D9D6122, 0xFDE5380C,
        0xA4BEEA44, 0x4BDECFA9, 0xF6BB4B60, 0xBEBFBC70,
        0x289B7EC6, 0xEAA127FA, 0xD4EF3085, 0x04881D05,
        0xD9D4D039, 0xE6DB99E5, 0x1FA27CF8, 0xC4AC5665] ++
       [0xF4292244, 0x432AFF97, 0xAB9423A7, 0xFC93A039,
        0x655B59C3, 0x8F0CCC92, 0xFFEFF47D, 0x85845DD1,
        0x6FA87E4F, 0xFE2CE6E0, 0xA3014314, 0x4E0811A1,
        0xF7537E82, 0xBD3AF235, 0x2AD7D2BB, 0xEB86D391] :
        List Word)[idx.toNat]? = some k ∧
      kTable[idx.toNat]? = some k ∧ exec (.rdk idx) s = .next (s.answer ⟨.ok, k⟩))

/-- 45_table_commands.md R131 with 40_round_function.md R71: RDR answers `group(i div 16)[i mod 4]`, in 4..23. -/
def Obligations.RdrAnswersOneRotationAmount : Prop :=
  ∀ (s : State) (idx : BitVec 7),
    (encode (.rdr idx)).cmd.toNat = 0x00000031 + 256 * idx.toNat ∧
    (63 < idx.toNat → exec (.rdr idx) s = .next (s.answer ⟨.illegalCommand, 0⟩)) ∧
    (∀ g r, [[7, 12, 17, 22], [5, 9, 14, 20], [4, 11, 16, 23], [6, 10, 15, 21]][idx.toNat / 16]? = some g →
      g[idx.toNat % 4]? = some r →
      4 ≤ r ∧ r ≤ 23 ∧ exec (.rdr idx) s = .next (s.answer ⟨.ok, BitVec.ofNat 32 r⟩))

/-! ## Rules over all commands -/

/-- 60_exceptions.md R165: an error is precise and has no effect. Whatever command is presented, one that decode refuses
included, and whatever command term runs: if the response is not OK then DOUT is 0 and the state is as before but for that
response (and the transaction taken from the port). -/
def Obligations.ErrorsChangeNothing : Prop :=
  (∀ (i : Instr) (s t : State) (r : Response),
    exec i s = .next t → t.responses = s.responses ++ [r] → r.status ≠ .ok → r.dout = 0 ∧ t = s.answer r) ∧
  ∀ (c : Command) (rest : List PortInput) (s t : State) (r : Response), s.port = ⟨false, some c⟩ :: rest →
    step s = .next t → t.responses = s.responses ++ [r] → r.status ≠ .ok →
    r.dout = 0 ∧ t = State.answer { s with port := rest } r

/-- Every command that runs gives exactly one response and touches neither the reset history nor the transactions still to
come; the commands with no result answer DOUT = 0 (30_encoding.md R45, R47). -/
def Obligations.EveryCommandGivesOneResponse : Prop :=
  ∀ (i : Instr) (s t : State), exec i s = .next t → ∃ r : Response,
    t.responses = s.responses ++ [r] ∧ s.SamePort t ∧
    (i = .nop ∨ i = .init ∨ (∃ idx din, i = .setcv idx din) ∨ (∃ b, i = .putb b) ∨ (∃ din, i = .putw din) ∨
      i = .clrbuf ∨ i = .compress ∨ (∃ idx din, i = .setlen idx din) → r.dout = 0)

/-- 60_exceptions.md R160: the codes, and which commands raise which status; no step makes the core answer code 3 or
6..15. -/
def Obligations.StatusesAreRaisedAsListed : Prop :=
  (Status.ok.code = 0 ∧ Status.invalidBlockSize.code = 1 ∧ Status.invalidLength.code = 2 ∧
    Status.invalidDigestEncoding.code = 3 ∧ Status.illegalCommand.code = 4 ∧ Status.stateLocked.code = 5) ∧
  (∀ (i : Instr) (s t : State) (r : Response), exec i s = .next t → t.responses = s.responses ++ [r] →
    (r.status = .invalidBlockSize → (∃ b, i = .putb b) ∨ (∃ din, i = .putw din) ∨ i = .compress) ∧
    (r.status = .invalidLength → i = .padlen ∨ ∃ idx, i = .padbyte idx) ∧
    (r.status = .illegalCommand → ¬ i.WellFormed ∨ ∃ idx, i = .padbyte idx) ∧
    (r.status = .stateLocked → ∃ idx din, i = .setcv idx din)) ∧
  ∀ (s t : State) (r : Response), step s = .next t → t.responses = s.responses ++ [r] →
    r.status.code ≠ 3 ∧ r.status.code.toNat < 6 ∧ (r.status ≠ .ok → r.dout = 0)

/-- A command term whose index is above its range answers ILLEGAL_COMMAND before any other check, whatever the state
(60_exceptions.md R170, decode first; log entry 9). -/
def Obligations.IllFormedCommandsAreIllegalFirst : Prop :=
  ∀ (i : Instr) (s : State), ¬ i.WellFormed → exec i s = .next (s.answer ⟨.illegalCommand, 0⟩)

/-- 10_state.md R12: CV is written by exactly three operations. INIT and reset load IV into all four words; SETCV is OK
exactly for an index in range while LOADABLE is 1, and then overwrites exactly the word its index selects; COMPRESS is OK
exactly with BCNT = 64, and then replaces CV by the compression of CV with the block the buffer holds; every error, and
every other command, leaves CV. -/
def Obligations.ChainingStateHasThreeWriters : Prop :=
  (∀ s : State, (assertReset s).cv = ⟨0x67452301, 0xEFCDAB89, 0x98BADCFE, 0x10325476⟩) ∧
  ∀ (i : Instr) (s t : State) (r : Response), exec i s = .next t → t.responses = s.responses ++ [r] →
    (i = .init → r.status = .ok ∧ t.cv = ⟨0x67452301, 0xEFCDAB89, 0x98BADCFE, 0x10325476⟩) ∧
    (∀ idx din, i = .setcv idx din → (r.status = .ok ↔ idx.toNat ≤ 3 ∧ s.loadable = true) ∧
      (r.status = .ok → ∀ k < 4, [t.cv.a, t.cv.b, t.cv.c, t.cv.d][k]? =
        if k = idx.toNat then some din else [s.cv.a, s.cv.b, s.cv.c, s.cv.d][k]?)) ∧
    (i = .compress → (r.status = .ok ↔ s.bcnt = 64) ∧
      (r.status = .ok → ∃ blk, s.HoldsBlock blk ∧ t.cv = compress s.cv blk)) ∧
    (r.status ≠ .ok → t.cv = s.cv) ∧
    (i ≠ .init → (∀ idx din, i ≠ .setcv idx din) → i ≠ .compress → t.cv = s.cv)

/-- 10_state.md R14: BCNT is set to 0 by reset, INIT, CLRBUF and a successful COMPRESS, raised by 1 by PUTB and by 4 by PUTW,
and changed by nothing else; a write that would take it above 64 is refused, and from at most 64 it stays at most 64. -/
def Obligations.FillCountChangesAsListed : Prop :=
  (∀ s : State, (assertReset s).bcnt = 0) ∧
  ∀ (i : Instr) (s t : State) (r : Response), exec i s = .next t → t.responses = s.responses ++ [r] →
    (r.status = .ok → (i = .init ∨ i = .clrbuf ∨ i = .compress → t.bcnt = 0) ∧
      ((∃ b, i = .putb b) → t.bcnt.toNat = s.bcnt.toNat + 1) ∧
      ((∃ din, i = .putw din) → t.bcnt.toNat = s.bcnt.toNat + 4)) ∧
    (r.status ≠ .ok → t.bcnt = s.bcnt) ∧
    (i ≠ .init → i ≠ .clrbuf → i ≠ .compress → (∀ b, i ≠ .putb b) → (∀ din, i ≠ .putw din) → t.bcnt = s.bcnt) ∧
    (∀ n, ((∃ b, i = .putb b) ∧ n = 1) ∨ ((∃ din, i = .putw din) ∧ n = 4) → 64 < s.bcnt.toNat + n →
      r.status = .invalidBlockSize) ∧
    (s.bcnt.toNat ≤ 64 → t.bcnt.toNat ≤ 64)

/-- 10_state.md R15: LOADABLE is set to 1 by reset and INIT, cleared by a successful PUTB, PUTW or COMPRESS, and left
unchanged by every other command and by every command that ends in an error. -/
def Obligations.ResumeGateChangesAsListed : Prop :=
  (∀ s : State, (assertReset s).loadable = true) ∧
  ∀ (i : Instr) (s t : State) (r : Response), exec i s = .next t → t.responses = s.responses ++ [r] →
    (i = .init → t.loadable = true) ∧
    (r.status = .ok → ((∃ b, i = .putb b) ∨ (∃ din, i = .putw din) ∨ i = .compress) → t.loadable = false) ∧
    (r.status ≠ .ok → t.loadable = s.loadable) ∧
    (i ≠ .init → i ≠ .compress → (∀ b, i ≠ .putb b) → (∀ din, i ≠ .putw din) → t.loadable = s.loadable)

/-- Only SETLEN and reset write LEN, and only PUTB and PUTW write BUF: every other command leaves LEN, and every byte of
BUF, as it was (10_state.md R10's "Written by" column, R13, R16). -/
def Obligations.LengthAndBufferWriters : Prop :=
  ∀ (i : Instr) (s t : State), exec i s = .next t →
    ((∀ idx din, i ≠ .setlen idx din) → t.len = s.len) ∧
    ((∀ b, i ≠ .putb b) → (∀ din, i ≠ .putw din) → ∀ k, t.buf.read k = s.buf.read k)

/-- The read commands change no state and answer the same twice in a row; INIT, SETCV, SETLEN and CLRBUF leave, issued twice
in a row, the state of issuing them once (20_memory.md R39, which the spec derives). -/
def Obligations.ReadsAreRepeatableAndSettersIdempotent : Prop :=
  ∀ (i : Instr) (s : State),
    ((i = .nop ∨ (∃ idx, i = .getcv idx) ∨ (∃ idx, i = .getdig idx) ∨ i = .rdstat ∨ (∃ idx, i = .getlen idx) ∨
      i = .padlen ∨ (∃ idx, i = .padbyte idx) ∨ (∃ idx, i = .rdk idx) ∨ (∃ idx, i = .rdr idx)) →
      ∃ r : Response, exec i s = .next (s.answer r) ∧ exec i (s.answer r) = .next ((s.answer r).answer r)) ∧
    ((i = .init ∨ (∃ idx din, i = .setcv idx din) ∨ (∃ idx din, i = .setlen idx din) ∨ i = .clrbuf) →
      ∃ t u : State, exec i s = .next t ∧ exec i t = .next u ∧ t.SameCore u)

/-! ## Invariants and whole-machine rules -/

/-- Every command preserves 10_state.md R23 (`0 ≤ BCNT ≤ 64`; LOADABLE = 1 implies BCNT = 0), whatever the buffer holds (the
spec derives the invariants). -/
def Obligations.CommandsKeepTheCountInvariant : Prop :=
  ∀ (i : Instr) (s t : State), s.CountInv → exec i s = .next t → t.CountInv

/-- The reset state meets the invariant (10_state.md R22 to R24; its empty buffer is the model's choice, log entry 4). -/
def Obligations.ResetStateMeetsTheInvariant : Prop := State.reset.Inv

/-- Every step keeps the invariant: the count bounds of 10_state.md R23, every byte below BCNT written (R24), and BUF's
canonical form with every position in 0..63 (log entry 4); from every state that meets it, whatever the transaction. -/
def Obligations.EveryStepKeepsTheInvariant : Prop :=
  ∀ s t : State, s.Inv → step s = .next t → t.Inv

/-- A core that has been reset and meets the invariant never stops: any number of steps, with any transactions waiting, ends
in a next state that meets it again. So the fault on an unwritten byte is unreachable (10_state.md R24), and no error
halts the core (60_exceptions.md R166). The port list and the unwritten bytes are log entries 1 and 4. -/
def Obligations.ReadyCoreNeverStops : Prop :=
  ∀ (k : Nat) (s : State), s.Inv → s.wasReset = true →
    ∃ t : State, runSteps k s = .next t ∧ t.Inv ∧ t.wasReset = true

/-- Bytes of BUF at or beyond BCNT are unobservable (10_state.md R24; 93_implementation_defined.md U2): two states that
differ only there step alike, with the same responses, and differ only there again. -/
def Obligations.StaleBufferBytesAreUnobservable : Prop :=
  ∀ s t s' : State, s.AgreeBelowCount t → step s = .next s' →
    ∃ t' : State, step t = .next t' ∧ s'.AgreeBelowCount t'

/-- The padding calculator is a leaf (10_state.md R16): what SETLEN, GETLEN, PADLEN and PADBYTE answer and leave in LEN
depends on LEN alone. -/
def Obligations.PaddingCommandsDependOnLengthAlone : Prop :=
  ∀ (i : Instr) (s t : State), s.len = t.len →
    ((∃ idx din, i = .setlen idx din) ∨ (∃ idx, i = .getlen idx) ∨ i = .padlen ∨ (∃ idx, i = .padbyte idx)) →
    ∃ (r : Response) (len : DWord),
      exec i s = .next (State.answer { s with len := len } r) ∧ exec i t = .next (State.answer { t with len := len } r)

/-- RESUME sets any chaining state from any state of a core that was reset, restarting the message (30_encoding.md R55;
60_exceptions.md R173, which the spec derives), issued through the port list of log entry 1. -/
def Obligations.ResumeSetsAnyChainingState : Prop :=
  ∀ (s : State) (q : Quad), s.wasReset = true → ∃ t : State,
    runSteps 5 { s with port := issue (resume q) } = .next t ∧
    t.cv = q ∧ t.bcnt = 0 ∧ t.loadable = true ∧ t.len = s.len ∧ t.buf = s.buf ∧ t.port = [] ∧
    t.responses = s.responses ++ List.replicate 5 ⟨.ok, 0⟩

/-- One core's step changes no other core of a system (60_exceptions.md R174); which core steps is the caller's (log entry
13). -/
def Obligations.InstancesShareNoState : Prop :=
  ∀ (n : Nat) (sys sys' : System n) (k : Fin n), sys.stepAt k = .next sys' →
    step sys[k] = .next sys'[k] ∧ ∀ j : Fin n, j ≠ k → sys'[j] = sys[j]

/-! ## The host's procedures (48_host_procedures.md) -/

/-- The extension property (48_host_procedures.md R145, R146): resuming from the digest of S and folding the attack's blocks
gives the digest of S ++ forged, for every S and every suffix. Above LEN_MAX, where R140 and R144 hash nothing, this speaks
of the model's own extension of `pad` and `md5` (log entry 16). -/
def Obligations.ExtensionPropertyOfMd5 : Prop :=
  ∀ S suffix : List Byte,
    foldBlocks (md5 S) (attackBlocks S.length suffix) = md5 (S ++ forged S.length suffix)

/-- The digest text of any state is 32 characters and decodes to the same state (48_host_procedures.md R142, R143;
the nibble order is log entry 14). -/
def Obligations.DigestTextRoundTrip : Prop :=
  ∀ q : Quad, (digestText q).length = 32 ∧ digestWords (digestText q) = .ok q

/-- The hashing procedure for a message of at most LEN_MAX bytes, from any state of a core that was reset: every command
completes, CV ends as the digest of the message, and the last sixteen answers are its digest bytes in order
(48_host_procedures.md R140). The port list is log entry 1; that the host computes the padding itself, pushes by PUTB and
reads by GETDIG is log entry 14. -/
def Obligations.HashingProcedureLeavesTheDigest : Prop :=
  ∀ (s : State) (m : List Byte), s.wasReset = true → m.length ≤ lenMax → ∃ t : State,
    runSteps (hashCommands m).length { s with port := issue (hashCommands m) } = .next t ∧
    t.cv = md5 m ∧ t.port = [] ∧ ∃ before : List Response, (∀ r ∈ before, r.status = .ok) ∧
      t.responses = s.responses ++ before ++ (digestBytes (md5 m)).map fun b => ⟨.ok, b.setWidth 32⟩

/-- The length-extension attack on the digest text of a message S of the given length: it is admitted while the forged
length is at most LEN_MAX, every command completes on any core that was reset, the chaining state ends as the digest of S
followed by the forged bytes, and the last sixteen answers are its bytes in order (48_host_procedures.md R144, R145).
The port list is log entry 1; that the host pushes by PUTB and reads by GETDIG, and the nibble order, is log entry 14. -/
def Obligations.AttackProcedureForgesTheDigest : Prop :=
  ∀ (s : State) (S suffix : List Byte), s.wasReset = true → forgedLen S.length suffix ≤ lenMax →
    ∃ (is : List Instr) (t : State),
      attack S.length (digestText (md5 S)) suffix = .ok (pad S.length ++ suffix, is) ∧
      runSteps is.length { s with port := issue is } = .next t ∧
      t.cv = md5 (S ++ (pad S.length ++ suffix)) ∧
      ∃ before : List Response, (∀ r ∈ before, r.status = .ok) ∧ t.responses = s.responses ++ before ++
        (digestBytes (md5 (S ++ (pad S.length ++ suffix)))).map fun b => ⟨.ok, b.setWidth 32⟩
end

