-- ==== Sys2Proof/Laws/Decode.lean ====
section
/-! SUPPORT. The fields of a command word as numbers, and the opcode map row by row. -/

namespace Sys2Proof

theorem opField_toNat (cmd : Word) : (opField cmd).toNat = cmd.toNat % 256 := by
  simp [opField, BitVec.extractLsb'_toNat]

theorem idxField_toNat (cmd : Word) : (idxField cmd).toNat = cmd.toNat / 256 % 128 := by
  simp [idxField, BitVec.extractLsb'_toNat, Nat.shiftRight_eq_div_pow]

theorem rsvField_toNat (cmd : Word) : (rsvField cmd).toNat = cmd.toNat / 32768 := by
  have := cmd.isLt
  simp only [rsvField, BitVec.extractLsb'_toNat, Nat.shiftRight_eq_div_pow]
  omega

theorem cmdWord_toNat (op : BitVec 8) (idx : BitVec 7) : (cmdWord op idx).toNat = op.toNat + 256 * idx.toNat := by
  have := op.isLt; have := idx.isLt
  simp only [cmdWord, BitVec.toNat_add, BitVec.toNat_setWidth, BitVec.toNat_shiftLeft, Nat.shiftLeft_eq]
  omega

@[simp] theorem opField_cmdWord (op : BitVec 8) (idx : BitVec 7) : opField (cmdWord op idx) = op := by
  apply BitVec.eq_of_toNat_eq
  have := op.isLt
  rw [opField_toNat, cmdWord_toNat]; omega

@[simp] theorem idxField_cmdWord (op : BitVec 8) (idx : BitVec 7) : idxField (cmdWord op idx) = idx := by
  apply BitVec.eq_of_toNat_eq
  have := op.isLt; have := idx.isLt
  rw [idxField_toNat, cmdWord_toNat]; omega

@[simp] theorem rsvField_cmdWord (op : BitVec 8) (idx : BitVec 7) : rsvField (cmdWord op idx) = 0 := by
  apply BitVec.eq_of_toNat_eq
  have := op.isLt; have := idx.isLt
  rw [rsvField_toNat, cmdWord_toNat]
  change _ = 0
  omega

/-- A word with RSV = 0 is the word of its own fields. -/
theorem cmdWord_fields {cmd : Word} (h : rsvField cmd = 0) : cmdWord (opField cmd) (idxField cmd) = cmd := by
  apply BitVec.eq_of_toNat_eq
  have hr : cmd.toNat / 32768 = 0 := by rw [← rsvField_toNat, h]; rfl
  rw [cmdWord_toNat, opField_toNat, idxField_toNat]; omega

/-- No two rows of the opcode map have the same OP (30_encoding.md R50, R51). -/
theorem opcodeTable_ops_distinct : (opcodeTable.map OpcodeRow.op).Nodup := by decide

/-- The row the decoder finds for an OP. -/
def findRow (op : BitVec 8) : Option OpcodeRow := opcodeTable.find? (fun r => r.op == op)

/-- The IDX range of every OP, read off the map of 30_encoding.md R50; none for a reserved OP. -/
theorem findRow_idxMax : ∀ op < 256, (findRow (BitVec.ofNat 8 op)).map OpcodeRow.idxMax =
    if op ∈ [0x00, 0x01, 0x05, 0x10, 0x11, 0x12, 0x13, 0x22] then some 0
    else if op ∈ [0x20, 0x21] then some 1
    else if op ∈ [0x02, 0x03] then some 3
    else if op = 0x04 then some 15
    else if op = 0x23 then some 71
    else if op ∈ [0x30, 0x31] then some 63
    else none := by decide +kernel

theorem opField_eq_ofNat (cmd : Word) : opField cmd = BitVec.ofNat 8 (cmd.toNat % 256) := by
  apply BitVec.eq_of_toNat_eq
  rw [opField_toNat, BitVec.toNat_ofNat]; omega

theorem decode_eq (c : Command) :
    decode c = if rsvField c.cmd ≠ 0 then .illegal (.reservedBits (rsvField c.cmd))
      else match findRow (opField c.cmd) with
        | none => .illegal (.reservedOpcode (opField c.cmd))
        | some r =>
          if r.idxMax < (idxField c.cmd).toNat then .illegal (.indexOutOfRange (opField c.cmd) (idxField c.cmd))
          else .command (r.build (idxField c.cmd) c.din) := rfl

/-- Every row found stands in the table under its OP. -/
theorem findRow_some {op : BitVec 8} {r : OpcodeRow} (h : findRow op = some r) : r ∈ opcodeTable ∧ r.op = op :=
  ⟨List.mem_of_find?_eq_some h, by simpa using List.find?_some h⟩

/-- A word whose fields select a row decodes to that row's command. -/
theorem decode_row {cmd din : Word} {r : OpcodeRow} (hr : rsvField cmd = 0) (hf : findRow (opField cmd) = some r)
    (hi : (idxField cmd).toNat ≤ r.idxMax) : decode ⟨cmd, din⟩ = .command (r.build (idxField cmd) din) := by
  rw [decode_eq, if_neg (by simpa using hr), hf]
  exact if_neg (by simpa using hi)

/-- What a decoded command says of its word: RSV is 0 and one row of the map gives it. -/
theorem decode_command {c : Command} {i : Instr} (h : decode c = .command i) :
    rsvField c.cmd = 0 ∧ ∃ r ∈ opcodeTable, r.op = opField c.cmd ∧ (idxField c.cmd).toNat ≤ r.idxMax ∧
      i = r.build (idxField c.cmd) c.din := by
  rw [decode_eq] at h
  split at h
  · cases h
  · rename_i hr
    split at h
    · cases h
    · rename_i r hf
      split at h
      · cases h
      · obtain ⟨hm, ho⟩ := findRow_some hf
        exact ⟨not_not.1 hr, r, hm, ho, by omega, (Decoded.command.inj h).symm⟩

/-- What an illegal word says of its fields, by reason (30_encoding.md R52). -/
theorem decode_illegal {c : Command} {why : IllegalReason} (h : decode c = .illegal why) :
    rsvField c.cmd ≠ 0 ∨ findRow (opField c.cmd) = none ∨
      ∃ r, findRow (opField c.cmd) = some r ∧ r.idxMax < (idxField c.cmd).toNat := by
  rw [decode_eq] at h
  split at h
  · exact .inl ‹_›
  · split at h
    · exact .inr (.inl ‹_›)
    · rename_i r hf
      split at h
      · exact .inr (.inr ⟨r, hf, ‹_›⟩)
      · cases h

/-- Every command's OP selects the row that rebuilds it (30_encoding.md R50). -/
theorem findRow_opcode (i : Instr) :
    ∃ r, findRow i.opcode = some r ∧ r.idxMax = i.indexMax ∧ r.build i.index i.dinWord = i := by
  cases i with
  | putb b =>
    refine ⟨_, rfl, rfl, ?_⟩
    show Instr.putb _ = _
    congr 1
    apply BitVec.eq_of_toNat_eq
    have := b.isLt
    simp only [Instr.dinWord, BitVec.extractLsb'_toNat, BitVec.toNat_setWidth, Nat.shiftRight_zero]
    omega
  | _ => exact ⟨_, rfl, rfl, rfl⟩

end Sys2Proof
end

