-- ==== Sys2Proof/Laws/Memory.lean ====
section
/-! SUPPORT. The laws of the block buffer: read after write, the canonical form kept by every write, and what reading a run
of bytes says. -/

namespace Sys2Proof.Machine

@[simp] theorem Memory.read_nil (k : Nat) : Memory.read [] k = none := rfl

@[simp] theorem Memory.read_write_same (m : Memory) (k : Nat) (v : Byte) : (m.write k v).read k = some v := by
  induction m with
  | nil => simp [Memory.write, Memory.read]
  | cons c m ih =>
    obtain ⟨k', b⟩ := c
    simp only [Memory.write]
    split
    · simp [Memory.read]
    · split
      · simp [Memory.read]
      · rw [Memory.read, if_neg (by omega), ih]

theorem Memory.read_write_other (m : Memory) {k k' : Nat} (v : Byte) (h : k' ≠ k) :
    (m.write k v).read k' = m.read k' := by
  induction m with
  | nil => simp [Memory.write, Memory.read, Ne.symm h]
  | cons c m ih =>
    obtain ⟨k₀, b⟩ := c
    simp only [Memory.write]
    split
    · simp [Memory.read, Ne.symm h]
    · split
      · subst_vars; simp [Memory.read, Ne.symm h]
      · simp [Memory.read, ih]

/-- Read after write, both cases. -/
theorem Memory.read_write (m : Memory) (k k' : Nat) (v : Byte) :
    (m.write k v).read k' = if k' = k then some v else m.read k' := by
  split
  · subst_vars; simp
  · exact m.read_write_other v ‹_›

theorem Memory.mem_write {m : Memory} {k : Nat} {v : Byte} {c : Host.Cell} (h : c ∈ m.write k v) :
    c = (k, v) ∨ c ∈ m := by
  induction m with
  | nil => simpa [Memory.write] using h
  | cons d m ih =>
    obtain ⟨k', b⟩ := d
    simp only [Memory.write] at h
    split at h
    · simpa using h
    · split at h
      · simp only [List.mem_cons] at h ⊢; tauto
      · simp only [List.mem_cons] at h ⊢
        rcases h with h | h
        · exact .inr (.inl h)
        · exact (ih h).imp id .inr

theorem Memory.keys_write_subset (m : Memory) (k : Nat) (v : Byte) {a : Nat}
    (h : a ∈ (m.write k v).map Prod.fst) : a = k ∨ a ∈ m.map Prod.fst := by
  obtain ⟨c, hc, rfl⟩ := List.mem_map.1 h
  rcases Memory.mem_write hc with rfl | hc
  · exact .inl rfl
  · exact .inr (List.mem_map_of_mem hc)

/-- A write inside the buffer keeps the canonical form. -/
theorem Memory.wf_write {m : Memory} {k : Nat} (v : Byte) (hm : m.wf) (hk : k < 64) : (m.write k v).wf := by
  obtain ⟨hs, hb⟩ := hm
  refine ⟨?_, fun c hc => ?_⟩
  · clear hb
    induction m with
    | nil => simp [Memory.write]
    | cons c m ih =>
      obtain ⟨k', b⟩ := c
      simp only [List.map_cons, List.pairwise_cons] at hs
      obtain ⟨h1, h2⟩ := hs
      simp only [Memory.write]
      split
      · simp only [List.map_cons, List.pairwise_cons, List.mem_cons]
        refine ⟨?_, h1, h2⟩
        rintro a (rfl | ha)
        · assumption
        · exact Nat.lt_trans ‹_› (h1 a ha)
      · split
        · subst_vars
          simp only [List.map_cons, List.pairwise_cons]
          exact ⟨h1, h2⟩
        · simp only [List.map_cons, List.pairwise_cons]
          refine ⟨fun a ha => ?_, ih h2⟩
          rcases Memory.keys_write_subset m k v ha with rfl | ha
          · omega
          · exact h1 a ha
  · rcases Memory.mem_write hc with rfl | hc
    · exact hk
    · exact hb c hc

@[simp] theorem Memory.writeBytes_nil (m : Memory) (k : Nat) : m.writeBytes k [] = m := rfl

@[simp] theorem Memory.writeBytes_cons (m : Memory) (k : Nat) (v : Byte) (vs : List Byte) :
    m.writeBytes k (v :: vs) = (m.write k v).writeBytes (k + 1) vs := rfl

/-- What a position reads as after a run of bytes is written: the byte written there, or what it read before. -/
theorem Memory.read_writeBytes (m : Memory) (k : Nat) (vs : List Byte) (a : Nat) :
    (m.writeBytes k vs).read a = if k ≤ a ∧ a < k + vs.length then vs[a - k]? else m.read a := by
  induction vs generalizing m k with
  | nil => rw [if_neg (by simp)]; rfl
  | cons v vs ih =>
    rw [Memory.writeBytes_cons, ih, List.length_cons]
    by_cases h1 : a = k
    · subst h1
      rw [if_neg (by omega), if_pos (by omega)]; simp
    · by_cases h2 : k + 1 ≤ a ∧ a < k + 1 + vs.length
      · rw [if_pos h2, if_pos (by omega), show a - k = (a - (k + 1)) + 1 by omega, List.getElem?_cons_succ]
      · rw [if_neg h2, if_neg (by omega), Memory.read_write_other m v h1]

/-- Each byte of a run stands at its position. -/
theorem Memory.read_writeBytes_at (m : Memory) (k : Nat) {vs : List Byte} {j : Nat} (h : j < vs.length) :
    (m.writeBytes k vs).read (k + j) = vs[j]? := by
  rw [Memory.read_writeBytes, if_pos (by omega), Nat.add_sub_cancel_left]

/-- Every position outside a run reads as before. -/
theorem Memory.read_writeBytes_other (m : Memory) (k : Nat) {vs : List Byte} {a : Nat}
    (h : a < k ∨ k + vs.length ≤ a) : (m.writeBytes k vs).read a = m.read a := by
  rw [Memory.read_writeBytes, if_neg (by omega)]

/-- A run of writes inside the buffer keeps the canonical form. -/
theorem Memory.wf_writeBytes {m : Memory} {k : Nat} {vs : List Byte} (hm : m.wf) (h : k + vs.length ≤ 64) :
    (m.writeBytes k vs).wf := by
  induction vs generalizing m k with
  | nil => exact hm
  | cons v vs ih =>
    rw [List.length_cons] at h
    exact ih (Memory.wf_write v hm (by omega)) (by omega)

/-- Reading a run of bytes gives them exactly where each is readable. -/
theorem Memory.readBytes_eq_some {m : Memory} {k n : Nat} {bs : List Byte} :
    m.readBytes k n = some bs ↔ bs.length = n ∧ ∀ j < n, m.read (k + j) = bs[j]? := by
  induction n generalizing k bs with
  | zero =>
    simp only [Memory.readBytes, Option.some.injEq, Nat.not_lt_zero, false_implies, implies_true, and_true]
    exact ⟨fun h => by simp [← h], fun h => (List.length_eq_zero_iff.1 h).symm⟩
  | succ n ih =>
    rw [Memory.readBytes]
    constructor
    · intro h
      split at h
      · rename_i b bs' hb hbs
        obtain ⟨hl, hr⟩ := ih.1 hbs
        cases h
        refine ⟨by simp [hl], fun j hj => ?_⟩
        cases j with
        | zero => simpa using hb
        | succ j => rw [show k + (j + 1) = k + 1 + j by omega, hr j (by omega), List.getElem?_cons_succ]
      · cases h
    · rintro ⟨hl, hr⟩
      cases bs with
      | nil => simp at hl
      | cons b bs =>
        have h0 : m.read k = some b := by simpa using hr 0 (by omega)
        have h1 : m.readBytes (k + 1) n = some bs := ih.2 ⟨by simpa using hl, fun j hj => by
          rw [show k + 1 + j = k + (j + 1) by omega, hr (j + 1) (by omega), List.getElem?_cons_succ]⟩
        rw [h0, h1]

/-- Reading a run of bytes fails exactly where one of them is unwritten. -/
theorem Memory.readBytes_eq_none {m : Memory} {k n : Nat} :
    m.readBytes k n = none ↔ ∃ j < n, m.read (k + j) = none := by
  induction n generalizing k with
  | zero => simp [Memory.readBytes]
  | succ n ih =>
    rw [Memory.readBytes]
    constructor
    · intro h
      cases hb : m.read k with
      | none => exact ⟨0, by omega, hb⟩
      | some b =>
        cases hbs : m.readBytes (k + 1) n with
        | none =>
          obtain ⟨j, hj, hr⟩ := ih.1 hbs
          exact ⟨j + 1, by omega, by rw [show k + (j + 1) = k + 1 + j by omega, hr]⟩
        | some bs => simp [hb, hbs] at h
    · rintro ⟨j, hj, hr⟩
      cases j with
      | zero => rw [show m.read k = none from hr]
      | succ j =>
        have : m.readBytes (k + 1) n = none := ih.2 ⟨j, by omega, by rw [← hr]; congr 1; omega⟩
        rw [this]
        cases m.read k <;> rfl

/-- The block is readable exactly as the bytes at positions 0..63. -/
theorem Memory.block_eq_some {m : Memory} {blk : List Byte} :
    m.block = some blk ↔ blk.length = 64 ∧ ∀ k < 64, m.read k = blk[k]? := by
  simpa [Memory.block] using Memory.readBytes_eq_some (m := m) (k := 0) (n := 64) (bs := blk)

theorem Memory.block_eq_none {m : Memory} : m.block = none ↔ ∃ k < 64, m.read k = none := by
  simpa [Memory.block] using Memory.readBytes_eq_none (m := m) (k := 0) (n := 64)

/-- Two memories that read alike below 64 hold the same block. -/
theorem Memory.block_congr {m m' : Memory} (h : ∀ k < 64, m.read k = m'.read k) : m.block = m'.block := by
  cases hb : m.block with
  | none =>
    obtain ⟨k, hk, hr⟩ := Memory.block_eq_none.1 hb
    exact (Memory.block_eq_none.2 ⟨k, hk, by rw [← h k hk, hr]⟩).symm
  | some blk =>
    obtain ⟨hl, hr⟩ := Memory.block_eq_some.1 hb
    exact (Memory.block_eq_some.2 ⟨hl, fun k hk => by rw [← h k hk, hr k hk]⟩).symm

end Sys2Proof.Machine
end

