-- ==== Sys2Proof/Laws/State.lean ====
section
/-! SUPPORT. One lemma per field per update of State: answering, asserting reset, and placing a command at the port. -/

namespace Sys2Proof.Machine

@[simp] theorem State.answer_cv (s : State) (r : Response) : (s.answer r).cv = s.cv := rfl
@[simp] theorem State.answer_buf (s : State) (r : Response) : (s.answer r).buf = s.buf := rfl
@[simp] theorem State.answer_bcnt (s : State) (r : Response) : (s.answer r).bcnt = s.bcnt := rfl
@[simp] theorem State.answer_loadable (s : State) (r : Response) : (s.answer r).loadable = s.loadable := rfl
@[simp] theorem State.answer_len (s : State) (r : Response) : (s.answer r).len = s.len := rfl
@[simp] theorem State.answer_wasReset (s : State) (r : Response) : (s.answer r).wasReset = s.wasReset := rfl
@[simp] theorem State.answer_port (s : State) (r : Response) : (s.answer r).port = s.port := rfl
@[simp] theorem State.answer_responses (s : State) (r : Response) :
    (s.answer r).responses = s.responses ++ [r] := rfl

@[simp] theorem assertReset_cv (s : State) : (assertReset s).cv = iv := rfl
@[simp] theorem assertReset_buf (s : State) : (assertReset s).buf = [] := rfl
@[simp] theorem assertReset_bcnt (s : State) : (assertReset s).bcnt = 0 := rfl
@[simp] theorem assertReset_loadable (s : State) : (assertReset s).loadable = true := rfl
@[simp] theorem assertReset_len (s : State) : (assertReset s).len = 0 := rfl
@[simp] theorem assertReset_wasReset (s : State) : (assertReset s).wasReset = true := rfl
@[simp] theorem assertReset_port (s : State) : (assertReset s).port = s.port := rfl
@[simp] theorem assertReset_responses (s : State) : (assertReset s).responses = s.responses := rfl

@[simp] theorem State.withCommand_cv (s : State) (c : Command) : (s.withCommand c).cv = s.cv := rfl
@[simp] theorem State.withCommand_buf (s : State) (c : Command) : (s.withCommand c).buf = s.buf := rfl
@[simp] theorem State.withCommand_bcnt (s : State) (c : Command) : (s.withCommand c).bcnt = s.bcnt := rfl
@[simp] theorem State.withCommand_loadable (s : State) (c : Command) :
    (s.withCommand c).loadable = s.loadable := rfl
@[simp] theorem State.withCommand_len (s : State) (c : Command) : (s.withCommand c).len = s.len := rfl
@[simp] theorem State.withCommand_wasReset (s : State) (c : Command) : (s.withCommand c).wasReset = true := rfl
@[simp] theorem State.withCommand_port (s : State) (c : Command) :
    (s.withCommand c).port = present c :: s.port := rfl
@[simp] theorem State.withCommand_responses (s : State) (c : Command) :
    (s.withCommand c).responses = s.responses := rfl

/-- Appending one response determines it. -/
theorem responses_append_inj {rs : List Response} {r r' : Response} (h : rs ++ [r] = rs ++ [r']) : r = r' := by
  simpa using h

end Sys2Proof.Machine
end

