-- ==== Sys2Proof/Laws/Ops.lean ====
section
/-! SUPPORT. One lemma per shared operation: everything it can answer. -/

namespace Sys2Proof.Machine

theorem respond_eq (v : Word) (s : State) : respond v s = .next (s.answer ⟨.ok, v⟩) := rfl

theorem raise_eq (code : Status) (s : State) : raise code s = .next (s.answer ⟨code, 0⟩) := rfl

@[simp] theorem respond_next_iff {v : Word} {s t : State} : respond v s = .next t ↔ t = s.answer ⟨.ok, v⟩ := by
  rw [respond_eq, Host.Outcome.next.injEq, eq_comm]

@[simp] theorem raise_next_iff {code : Status} {s t : State} : raise code s = .next t ↔ t = s.answer ⟨code, 0⟩ := by
  rw [raise_eq, Host.Outcome.next.injEq, eq_comm]

@[simp] theorem respondEntry_some (w : Word) (s : State) : respondEntry (some w) s = respond w s := rfl

@[simp] theorem respondEntry_none (s : State) : respondEntry none s = raise .illegalCommand s := rfl

/-- A read of an indexed place answers one response and changes nothing else. -/
theorem respondEntry_next {v : Option Word} {s t : State} (h : respondEntry v s = .next t) :
    (∃ w, v = some w ∧ t = s.answer ⟨.ok, w⟩) ∨ (v = none ∧ t = s.answer ⟨.illegalCommand, 0⟩) := by
  cases v with
  | none => exact .inr ⟨rfl, by simpa using h⟩
  | some w => exact .inl ⟨w, rfl, by simpa using h⟩

/-- Bytes that do not fit are refused whole. -/
theorem appendBytes_full {bytes : List Byte} {s : State} (h : 64 < s.bcnt.toNat + bytes.length) :
    appendBytes bytes s = raise .invalidBlockSize s := if_pos h

/-- Bytes that fit are stored from BCNT upwards. -/
theorem appendBytes_room {bytes : List Byte} {s : State} (h : s.bcnt.toNat + bytes.length ≤ 64) :
    appendBytes bytes s = respond 0 { s with
      buf := s.buf.writeBytes s.bcnt.toNat bytes
      bcnt := s.bcnt + BitVec.ofNat 7 bytes.length
      loadable := false } := if_neg (by omega)

/-- One byte fits below a full count. -/
theorem appendBytes_byte {b : Byte} {s : State} (h : s.bcnt.toNat < 64) :
    appendBytes [b] s = respond 0 { s with
      buf := s.buf.write s.bcnt.toNat b, bcnt := s.bcnt + 1, loadable := false } :=
  appendBytes_room (bytes := [b]) h

/-- Everything an append can do. -/
theorem appendBytes_next {bytes : List Byte} {s t : State} (h : appendBytes bytes s = .next t) :
    (64 < s.bcnt.toNat + bytes.length ∧ t = s.answer ⟨.invalidBlockSize, 0⟩) ∨
    (s.bcnt.toNat + bytes.length ≤ 64 ∧ t = State.answer { s with
      buf := s.buf.writeBytes s.bcnt.toNat bytes
      bcnt := s.bcnt + BitVec.ofNat 7 bytes.length
      loadable := false } ⟨.ok, 0⟩) := by
  by_cases hb : 64 < s.bcnt.toNat + bytes.length
  · exact .inl ⟨hb, by simpa [appendBytes_full hb] using h⟩
  · exact .inr ⟨by omega, by simpa [appendBytes_room (Nat.le_of_not_lt hb)] using h⟩

/-- An append always answers a next state. -/
theorem appendBytes_completes (bytes : List Byte) (s : State) : ∃ t, appendBytes bytes s = .next t := by
  by_cases hb : 64 < s.bcnt.toNat + bytes.length
  · exact ⟨_, appendBytes_full hb⟩
  · exact ⟨_, appendBytes_room (Nat.le_of_not_lt hb)⟩

/-- The count after an append that fits, as a number. -/
theorem bcnt_append_toNat {s : State} {bytes : List Byte} (h : s.bcnt.toNat + bytes.length ≤ 64) :
    (s.bcnt + BitVec.ofNat 7 bytes.length).toNat = s.bcnt.toNat + bytes.length := by
  rw [BitVec.toNat_add, BitVec.toNat_ofNat]; omega

@[simp] theorem wordLanes_length (v : Word) : (wordLanes v).length = 4 := rfl

/-- A byte lane as a number. -/
theorem byteLane_toNat (v : Word) (k : Nat) : (byteLane v k).toNat = v.toNat / 2 ^ (8 * k) % 256 := by
  simp [byteLane, BitVec.extractLsb'_toNat, Nat.shiftRight_eq_div_pow]

theorem byteLane_eq_ofNat (v : Word) (k : Nat) : byteLane v k = BitVec.ofNat 8 (v.toNat / 2 ^ (8 * k) % 256) := by
  apply BitVec.eq_of_toNat_eq
  rw [byteLane_toNat, BitVec.toNat_ofNat]; omega

/-- The little-endian reading of a word's own lanes is the word (20_memory.md R31, R32). -/
theorem le32_lanes (v : Word) : le32 (byteLane v 0) (byteLane v 1) (byteLane v 2) (byteLane v 3) = v := by
  apply BitVec.eq_of_toNat_eq
  have := v.isLt
  simp only [le32, byteLane_toNat, BitVec.toNat_ofNat]
  omega

/-- `le32` as a number: the sum does not wrap. -/
theorem le32_toNat (b0 b1 b2 b3 : Byte) :
    (le32 b0 b1 b2 b3).toNat = b0.toNat + 256 * b1.toNat + 65536 * b2.toNat + 16777216 * b3.toNat := by
  have := b0.isLt; have := b1.isLt; have := b2.isLt; have := b3.isLt
  simp only [le32, BitVec.toNat_ofNat]
  omega

/-- A chaining word exists exactly for an index in 0..3. -/
theorem cvWord?_isSome {q : Quad} {j : Nat} : (cvWord? q j).isSome ↔ j ≤ 3 := by
  match j with
  | 0 | 1 | 2 | 3 => simp [cvWord?]
  | j + 4 => simp [cvWord?]

theorem setCvWord?_eq_none {q : Quad} {v : Word} {j : Nat} : setCvWord? q v j = none ↔ 3 < j := by
  match j with
  | 0 | 1 | 2 | 3 => simp [setCvWord?]
  | j + 4 => simp [setCvWord?]

/-- Everything an overwrite of one chaining word can do: the index is in range, and exactly that word changes. -/
theorem setCvWord?_some {q q' : Quad} {v : Word} {j : Nat} (h : setCvWord? q v j = some q') :
    j ≤ 3 ∧ ∀ k < 4, [q'.a, q'.b, q'.c, q'.d][k]? = if k = j then some v else [q.a, q.b, q.c, q.d][k]? := by
  match j, h with
  | 0, h | 1, h | 2, h | 3, h =>
    simp only [setCvWord?, Option.some.injEq] at h
    subst h
    exact ⟨by omega, fun k hk => by interval_cases k <;> simp⟩
  | j + 4, h => simp [setCvWord?] at h

theorem cvWord?_eq_getElem? (q : Quad) (j : Nat) : cvWord? q j = [q.a, q.b, q.c, q.d][j]? := by
  match j with
  | 0 | 1 | 2 | 3 => rfl
  | j + 4 => simp [cvWord?]

theorem cvWord?_eq_none {q : Quad} {j : Nat} : cvWord? q j = none ↔ 3 < j := by
  match j with
  | 0 | 1 | 2 | 3 => simp [cvWord?]
  | j + 4 => simp [cvWord?]

theorem digestByte?_eq_none {q : Quad} {t : Nat} : digestByte? q t = none ↔ 15 < t := by
  rw [digestByte?, Option.map_eq_none_iff, cvWord?_eq_none]; omega

theorem lenHalf?_eq_none {len : DWord} {j : Nat} : lenHalf? len j = none ↔ 1 < j := by
  match j with
  | 0 | 1 => simp [lenHalf?]
  | j + 2 => simp [lenHalf?]

/-- Two halves put together, as a number. -/
theorem halves_toNat (hi lo : Word) : (hi ++ lo : DWord).toNat = 2 ^ 32 * hi.toNat + lo.toNat := by
  refine (BitVec.toNat_append hi lo).trans ?_
  rw [Nat.shiftLeft_eq, Nat.mul_comm, ← Nat.two_pow_add_eq_or_of_lt lo.isLt]

theorem lowHalf_toNat (len : DWord) : (len.extractLsb' 0 32).toNat = len.toNat % 2 ^ 32 := by
  rw [BitVec.extractLsb'_toNat, Nat.shiftRight_zero]

theorem highHalf_toNat (len : DWord) : (len.extractLsb' 32 32).toNat = len.toNat / 2 ^ 32 := by
  have := len.isLt
  rw [BitVec.extractLsb'_toNat, Nat.shiftRight_eq_div_pow, Nat.mod_eq_of_lt (by omega)]

/-- The two halves of a written LEN are the word written and the half kept. -/
theorem lenHalf?_setLenHalf? {len len' : DWord} {v : Word} {i j : Nat} (h : setLenHalf? len v i = some len')
    (hj : j ≤ 1) : lenHalf? len' j = if j = i then some v else lenHalf? len j := by
  have low : ∀ a b : Word, (a ++ b : DWord).extractLsb' 0 32 = b := fun a b => by
    have := b.isLt
    apply BitVec.eq_of_toNat_eq
    rw [lowHalf_toNat, halves_toNat]; omega
  have high : ∀ a b : Word, (a ++ b : DWord).extractLsb' 32 32 = a := fun a b => by
    have := b.isLt
    apply BitVec.eq_of_toNat_eq
    rw [highHalf_toNat, halves_toNat]; omega
  match i, h with
  | 0, h | 1, h =>
    simp only [setLenHalf?, Option.some.injEq] at h
    subst h
    interval_cases j <;> simp [lenHalf?, low, high]
  | i + 2, h => simp [setLenHalf?] at h

theorem setLenHalf?_eq_none {len : DWord} {v : Word} {j : Nat} : setLenHalf? len v j = none ↔ 1 < j := by
  match j with
  | 0 | 1 => simp [setLenHalf?]
  | j + 2 => simp [setLenHalf?]

end Sys2Proof.Machine
end

