-- ==== Sys2Proof/Laws/Exec.lean ====
section
/-! SUPPORT. What any command can do, said once: the shape of every next state, and the one place a command stops. -/

namespace Sys2Proof.Machine

/-- The commands that answer a value and write nothing (20_memory.md R39), NOP apart. -/
def IsRead (i : Instr) : Prop :=
  (∃ idx, i = .getcv idx) ∨ (∃ idx, i = .getdig idx) ∨ i = .rdstat ∨ (∃ idx, i = .getlen idx) ∨ i = .padlen ∨
    (∃ idx, i = .padbyte idx) ∨ (∃ idx, i = .rdk idx) ∨ (∃ idx, i = .rdr idx)

/-- Every way a command can answer and change nothing else. -/
def AnswersOnly (i : Instr) (s : State) (r : Response) : Prop :=
  (i = .nop ∧ r = ⟨.ok, 0⟩) ∨ (IsRead i ∧ r.status = .ok) ∨
  (r = ⟨.illegalCommand, 0⟩ ∧ (i.indexMax < i.index.toNat ∨ ∃ idx, i = .padbyte idx)) ∨
  (r = ⟨.stateLocked, 0⟩ ∧ s.loadable = false ∧ ∃ idx din, i = .setcv idx din) ∨
  (r = ⟨.invalidBlockSize, 0⟩ ∧
    ((∃ b, i = .putb b ∧ 64 < s.bcnt.toNat + 1) ∨ (∃ din, i = .putw din ∧ 64 < s.bcnt.toNat + 4) ∨
      (i = .compress ∧ s.bcnt ≠ 64))) ∨
  (r = ⟨.invalidLength, 0⟩ ∧ lenMax < s.len.toNat ∧ (i = .padlen ∨ ∃ idx, i = .padbyte idx))

/-- A read that completes answers OK, or ILLEGAL_COMMAND with nothing read. -/
theorem answersOnly_of_entry {i : Instr} {s t : State} {v : Option Word} (h : respondEntry v s = .next t)
    (hi : IsRead i) (hv : v = none → i.indexMax < i.index.toNat ∨ ∃ idx, i = .padbyte idx) :
    ∃ r : Response, t = s.answer r ∧ AnswersOnly i s r := by
  rcases respondEntry_next h with ⟨w, -, h⟩ | ⟨h0, h⟩
  · exact ⟨_, h, .inr (.inl ⟨hi, rfl⟩)⟩
  · exact ⟨_, h, .inr (.inr (.inl ⟨rfl, hv h0⟩))⟩

/-- Everything a command that completes can do: answer and change nothing, or one of the effects of INIT, SETCV, an append,
CLRBUF, COMPRESS or SETLEN. -/
theorem exec_next {i : Instr} {s t : State} (h : exec i s = .next t) :
    (∃ r : Response, t = s.answer r ∧ AnswersOnly i s r) ∨
    (i = .init ∧ t = State.answer { s with cv := iv, bcnt := 0, loadable := true } ⟨.ok, 0⟩) ∨
    (∃ idx din cv, i = .setcv idx din ∧ s.loadable = true ∧ setCvWord? s.cv din idx.toNat = some cv ∧
      t = State.answer { s with cv := cv } ⟨.ok, 0⟩) ∨
    (∃ bytes, ((∃ b, i = .putb b ∧ bytes = [b]) ∨ (∃ din, i = .putw din ∧ bytes = wordLanes din)) ∧
      s.bcnt.toNat + bytes.length ≤ 64 ∧ t = State.answer { s with
        buf := s.buf.writeBytes s.bcnt.toNat bytes
        bcnt := s.bcnt + BitVec.ofNat 7 bytes.length
        loadable := false } ⟨.ok, 0⟩) ∨
    (i = .clrbuf ∧ t = State.answer { s with bcnt := 0 } ⟨.ok, 0⟩) ∨
    (∃ blk, i = .compress ∧ s.bcnt = 64 ∧ s.buf.block = some blk ∧
      t = State.answer { s with cv := compress s.cv blk, bcnt := 0, loadable := false } ⟨.ok, 0⟩) ∨
    (∃ idx din len, i = .setlen idx din ∧ setLenHalf? s.len din idx.toNat = some len ∧
      t = State.answer { s with len := len } ⟨.ok, 0⟩) := by
  cases i with
  | nop => exact .inl ⟨_, respond_next_iff.1 h, .inl ⟨rfl, rfl⟩⟩
  | init => exact .inr (.inl ⟨rfl, respond_next_iff.1 h⟩)
  | setcv idx din =>
    simp only [exec, execSetcv] at h
    split at h
    · exact .inl ⟨_, raise_next_iff.1 h, .inr (.inr (.inl ⟨rfl, .inl (setCvWord?_eq_none.1 ‹_›)⟩))⟩
    · split at h
      · exact .inr (.inr (.inl ⟨idx, din, _, rfl, ‹_›, ‹_›, respond_next_iff.1 h⟩))
      · exact .inl ⟨_, raise_next_iff.1 h,
          .inr (.inr (.inr (.inl ⟨rfl, Bool.eq_false_iff.2 ‹_›, idx, din, rfl⟩)))⟩
  | getcv idx => exact .inl (answersOnly_of_entry h (.inl ⟨idx, rfl⟩) fun h0 => .inl (cvWord?_eq_none.1 h0))
  | getdig idx =>
    exact .inl (answersOnly_of_entry h (.inr (.inl ⟨idx, rfl⟩)) fun h0 => .inl (digestByte?_eq_none.1
      (Option.map_eq_none_iff.1 h0)))
  | rdstat => exact .inl ⟨_, respond_next_iff.1 h, .inr (.inl ⟨.inr (.inr (.inl rfl)), rfl⟩)⟩
  | putb b =>
    rcases appendBytes_next h with ⟨hb, h⟩ | ⟨hb, h⟩
    · exact .inl ⟨_, h, .inr (.inr (.inr (.inr (.inl ⟨rfl, .inl ⟨b, rfl, hb⟩⟩))))⟩
    · exact .inr (.inr (.inr (.inl ⟨_, .inl ⟨b, rfl, rfl⟩, hb, h⟩)))
  | putw din =>
    rcases appendBytes_next h with ⟨hb, h⟩ | ⟨hb, h⟩
    · exact .inl ⟨_, h, .inr (.inr (.inr (.inr (.inl ⟨rfl, .inr (.inl ⟨din, rfl, hb⟩)⟩))))⟩
    · exact .inr (.inr (.inr (.inl ⟨_, .inr ⟨din, rfl, rfl⟩, hb, h⟩)))
  | clrbuf => exact .inr (.inr (.inr (.inr (.inl ⟨rfl, respond_next_iff.1 h⟩))))
  | compress =>
    simp only [exec, execCompress] at h
    split at h
    · exact .inl ⟨_, raise_next_iff.1 h, .inr (.inr (.inr (.inr (.inl ⟨rfl, .inr (.inr ⟨rfl, ‹_›⟩)⟩))))⟩
    · split at h
      · cases h
      · rename_i hb _ blk hblk
        exact .inr (.inr (.inr (.inr (.inr (.inl ⟨blk, rfl, not_not.1 hb, hblk, respond_next_iff.1 h⟩)))))
  | setlen idx din =>
    simp only [exec, execSetlen] at h
    split at h
    · exact .inl ⟨_, raise_next_iff.1 h, .inr (.inr (.inl ⟨rfl, .inl (setLenHalf?_eq_none.1 ‹_›)⟩))⟩
    · exact .inr (.inr (.inr (.inr (.inr (.inr ⟨idx, din, _, rfl, ‹_›, respond_next_iff.1 h⟩)))))
  | getlen idx =>
    exact .inl (answersOnly_of_entry h (.inr (.inr (.inr (.inl ⟨idx, rfl⟩)))) fun h0 => .inl (lenHalf?_eq_none.1 h0))
  | padlen =>
    have hr : IsRead .padlen := .inr (.inr (.inr (.inr (.inl rfl))))
    simp only [exec, execPadlen] at h
    split at h
    · exact .inl ⟨_, raise_next_iff.1 h, .inr (.inr (.inr (.inr (.inr ⟨rfl, ‹_›, .inl rfl⟩))))⟩
    · exact .inl ⟨_, respond_next_iff.1 h, .inr (.inl ⟨hr, rfl⟩)⟩
  | padbyte idx =>
    have hr : IsRead (.padbyte idx) := .inr (.inr (.inr (.inr (.inr (.inl ⟨idx, rfl⟩)))))
    simp only [exec, execPadbyte] at h
    split at h
    · exact .inl ⟨_, raise_next_iff.1 h, .inr (.inr (.inl ⟨rfl, .inr ⟨idx, rfl⟩⟩))⟩
    · split at h
      · exact .inl ⟨_, raise_next_iff.1 h, .inr (.inr (.inr (.inr (.inr ⟨rfl, ‹_›, .inr ⟨idx, rfl⟩⟩))))⟩
      · exact .inl (answersOnly_of_entry h hr fun _ => .inr ⟨idx, rfl⟩)
  | rdk idx =>
    exact .inl (answersOnly_of_entry h (.inr (.inr (.inr (.inr (.inr (.inr (.inl ⟨idx, rfl⟩))))))) fun h0 =>
      .inl (List.getElem?_eq_none_iff.1 h0))
  | rdr idx =>
    exact .inl (answersOnly_of_entry h (.inr (.inr (.inr (.inr (.inr (.inr (.inr ⟨idx, rfl⟩))))))) fun h0 =>
      .inl (List.getElem?_eq_none_iff.1 (Option.map_eq_none_iff.1 h0)))

/-- A read of an indexed place always completes. -/
theorem respondEntry_completes (v : Option Word) (s : State) : ∃ t, respondEntry v s = .next t := by
  cases v with
  | none => exact ⟨_, rfl⟩
  | some w => exact ⟨_, rfl⟩

/-- A command completes unless it is COMPRESS on a full count with an unwritten byte. -/
theorem exec_completes (i : Instr) (s : State)
    (hc : i = .compress → s.bcnt = 64 → ∃ blk, s.buf.block = some blk) : ∃ t, exec i s = .next t := by
  cases i with
  | nop => exact ⟨_, rfl⟩
  | init => exact ⟨_, rfl⟩
  | setcv idx din =>
    simp only [exec, execSetcv]
    split
    · exact ⟨_, rfl⟩
    · split <;> exact ⟨_, rfl⟩
  | getcv idx => exact respondEntry_completes _ s
  | getdig idx => exact respondEntry_completes _ s
  | rdstat => exact ⟨_, rfl⟩
  | putb b => exact appendBytes_completes _ s
  | putw din => exact appendBytes_completes _ s
  | clrbuf => exact ⟨_, rfl⟩
  | compress =>
    simp only [exec, execCompress]
    split
    · exact ⟨_, rfl⟩
    · rename_i hb
      obtain ⟨blk, hblk⟩ := hc rfl (not_not.1 hb)
      rw [hblk]
      exact ⟨_, rfl⟩
  | setlen idx din =>
    simp only [exec, execSetlen]
    split <;> exact ⟨_, rfl⟩
  | getlen idx => exact respondEntry_completes _ s
  | padlen =>
    simp only [exec, execPadlen]
    split <;> exact ⟨_, rfl⟩
  | padbyte idx =>
    simp only [exec, execPadbyte]
    split
    · exact ⟨_, rfl⟩
    · split
      · exact ⟨_, rfl⟩
      · exact respondEntry_completes _ s
  | rdk idx => exact respondEntry_completes _ s
  | rdr idx => exact respondEntry_completes _ s

/-- What a response that changes nothing can be: its DOUT is 0 unless it is OK, and the core never raises the status kept for
the host. -/
theorem answersOnly_status {i : Instr} {s : State} {r : Response} (h : AnswersOnly i s r) :
    (r.status = .ok ∨ r.dout = 0) ∧ r.status ≠ .invalidDigestEncoding := by
  rcases h with ⟨-, rfl⟩ | ⟨-, h⟩ | ⟨rfl, -⟩ | ⟨rfl, -⟩ | ⟨rfl, -⟩ | ⟨rfl, -⟩ <;> simp [*]

end Sys2Proof.Machine
end

