-- ==== Sys2Proof/Laws/Padding.lean ====
section
/-! SUPPORT. The padding functions as linear arithmetic. -/

namespace Sys2Proof.Machine

/-- `Z(n)` as an integer: the mathematical modulus of 41_padding_function.md R90. -/
theorem zeroFill_cast (n : Nat) : (zeroFill n : Int) = (55 - (n : Int)) % 64 := by
  simp only [zeroFill]; omega

/-- `Z(n)` lies in 0..63 and brings n + 1 + Z(n) to 56 modulo 64 (41_padding_function.md R90). -/
theorem zeroFill_spec (n : Nat) : zeroFill n < 64 ∧ (n + 1 + zeroFill n) % 64 = 56 := by
  have := zeroFill_cast n
  omega

theorem padLen_eq (n : Nat) : padLen n = 9 + zeroFill n := rfl

@[simp] theorem le64Bytes_length (v : Nat) : (le64Bytes v).length = 8 := rfl

theorem le64Bytes_getElem? (v j : Nat) (h : j < 8) : (le64Bytes v)[j]? = some (BitVec.ofNat 8 (v / 2 ^ (8 * j))) := by
  simp [le64Bytes, h]

theorem pad_cons (n : Nat) : pad n = 0x80 :: (List.replicate (zeroFill n) 0x00 ++ le64Bytes (8 * n)) := rfl

@[simp] theorem pad_length (n : Nat) : (pad n).length = padLen n := by
  simp only [pad_cons, List.length_cons, List.length_append, List.length_replicate, le64Bytes_length, padLen_eq]
  omega

end Sys2Proof.Machine
end

