-- ==== Sys2Proof/Laws/HostProcedures.lean ====
section
/-! SUPPORT. The blocks of a byte string and the hexadecimal text, once for the statements on the host's procedures. -/

namespace Sys2Proof.Machine

/-- The blocks of whole blocks followed by more (48_host_procedures.md R140). -/
theorem blocksOf_append {a b : List Byte} (h : a.length % 64 = 0) : blocksOf (a ++ b) = blocksOf a ++ blocksOf b := by
  obtain ⟨n, hn⟩ : ∃ n, a.length = 64 * n := ⟨a.length / 64, by omega⟩
  simp only [blocksOf]
  rw [List.length_append, hn, show (64 * n + b.length) / 64 = n + b.length / 64 by omega,
    show 64 * n / 64 = n by omega, List.range_add, List.map_append, List.map_map]
  congr 1
  · apply List.map_congr_left
    intro t ht
    have := List.mem_range.1 ht
    rw [List.drop_append_of_le_length (by omega), List.take_append_of_le_length (by rw [List.length_drop]; omega)]
  · apply List.map_congr_left
    intro t ht
    show List.take 64 (List.drop (64 * (n + t)) (a ++ b)) = _
    rw [List.drop_append, List.drop_eq_nil_of_le (by omega), List.nil_append]
    congr 2
    omega

/-- Every block has 64 bytes. -/
theorem length_of_mem_blocksOf {p b : List Byte} (h : b ∈ blocksOf p) : b.length = 64 := by
  simp only [blocksOf, List.mem_map, List.mem_range] at h
  obtain ⟨t, ht, rfl⟩ := h
  have := Nat.div_mul_le_self p.length 64
  rw [List.length_take, List.length_drop]
  omega

/-- Reading a digit's text gives the digit back, whatever the host accepts in upper case (48_host_procedures.md R142, R143). -/
theorem hexValue?_hexDigit : ∀ n < 16, hexValue? (hexDigit n) = some n := by decide +kernel

/-- Reading one byte's text gives the byte back. -/
theorem textBytes?_byteText (b : Byte) (rest : List Char) :
    textBytes? (byteText b ++ rest) = (textBytes? rest).map (b :: ·) := by
  have := b.isLt
  show textBytes? (_ :: _ :: rest) = _
  rw [textBytes?, hexValue?_hexDigit _ (by omega), hexValue?_hexDigit _ (by omega)]
  cases textBytes? rest with
  | none => rfl
  | some bs =>
    simp only [Option.map_some, Option.some.injEq, List.cons.injEq, and_true]
    apply BitVec.eq_of_toNat_eq
    rw [BitVec.toNat_ofNat]
    omega

end Sys2Proof.Machine
end

