-- ==== Sys2Proof/Laws/PerInstr.lean ====
section
/-! SUPPORT. The family EncodeFields: the fields of every command's encoding, one lemma per command. -/

namespace Sys2Proof.Laws.EncodeFields

/-- The encoding has RSV = 0, the command's OP and its IDX, and the DIN word of its operand (30_encoding.md R46, R50). -/
def Statement (i : Instr) : Prop :=
  rsvField (encode i).cmd = 0 ∧ opField (encode i).cmd = i.opcode ∧ idxField (encode i).cmd = i.index ∧
    (encode i).din = i.dinWord

/-- The fields of any encoding, from the word's own. -/
theorem of_encode (i : Instr) : Statement i :=
  ⟨rsvField_cmdWord _ _, opField_cmdWord _ _, idxField_cmdWord _ _, rfl⟩

theorem nop : Statement .nop := of_encode _
theorem init : Statement .init := of_encode _
theorem setcv (idx : BitVec 7) (din : Word) : Statement (.setcv idx din) := of_encode _
theorem getcv (idx : BitVec 7) : Statement (.getcv idx) := of_encode _
theorem getdig (idx : BitVec 7) : Statement (.getdig idx) := of_encode _
theorem rdstat : Statement .rdstat := of_encode _
theorem putb (byte : Byte) : Statement (.putb byte) := of_encode _
theorem putw (din : Word) : Statement (.putw din) := of_encode _
theorem clrbuf : Statement .clrbuf := of_encode _
theorem compress : Statement .compress := of_encode _
theorem setlen (idx : BitVec 7) (din : Word) : Statement (.setlen idx din) := of_encode _
theorem getlen (idx : BitVec 7) : Statement (.getlen idx) := of_encode _
theorem padlen : Statement .padlen := of_encode _
theorem padbyte (idx : BitVec 7) : Statement (.padbyte idx) := of_encode _
theorem rdk (idx : BitVec 7) : Statement (.rdk idx) := of_encode _
theorem rdr (idx : BitVec 7) : Statement (.rdr idx) := of_encode _

end Sys2Proof.Laws.EncodeFields
end

