-- ==== Sys2Proof/Laws/Port.lean ====
section
/-! SUPPORT. What one step does, by the transaction waiting at the port, and how runs are put together. -/

namespace Sys2Proof.Machine

/-- Everything a step that completes can do: nothing but taking an empty transaction, a reset, an illegal word's answer, or
the decoded command's own run. -/
theorem step_next {s t : State} (h : step s = .next t) :
    (∃ rest, t = { s with port := rest }) ∨ (∃ rest, t = assertReset { s with port := rest }) ∨
    (∃ rest, t = State.answer { s with port := rest } ⟨.illegalCommand, 0⟩) ∨
    (∃ rest i, exec i { s with port := rest } = .next t) := by
  cases hp : s.port with
  | nil =>
    refine .inl ⟨s.port, ?_⟩
    simp only [step, portAction, hp, Host.Outcome.next.injEq] at h
    exact h.symm
  | cons tr rest =>
    cases hr : tr.reset with
    | true =>
      simp only [step, portAction, hp, hr, if_true, Host.Outcome.next.injEq] at h
      exact .inr (.inl ⟨rest, h.symm⟩)
    | false =>
      cases hc : tr.command with
      | none =>
        simp only [step, portAction, hp, hr, hc, Bool.false_eq_true, if_false, Host.Outcome.next.injEq] at h
        exact .inl ⟨rest, h.symm⟩
      | some c =>
        cases hw : s.wasReset with
        | false => simp [step, portAction, hp, hr, hc, commandAction, hw] at h
        | true =>
          cases hd : decode c with
          | illegal why =>
            simp only [step, portAction, hp, hr, hc, commandAction, hw, hd, Bool.false_eq_true, if_false, if_true,
              raise_next_iff] at h
            exact .inr (.inr (.inl ⟨rest, by simpa [← hw] using h⟩))
          | command i =>
            simp only [step, portAction, hp, hr, hc, commandAction, hw, hd, Bool.false_eq_true, if_false,
              if_true] at h
            exact .inr (.inr (.inr ⟨rest, i, by simpa [← hw] using h⟩))

@[simp] theorem runSteps_zero (s : State) : runSteps 0 s = .next s := rfl

theorem runSteps_succ {s t : State} (k : Nat) (h : step s = .next t) : runSteps (k + 1) s = runSteps k t := by
  rw [runSteps, h]

/-- A run of at least one step that completes begins with a step that does. -/
theorem runSteps_succ_next {s u : State} {k : Nat} (h : runSteps (k + 1) s = .next u) :
    ∃ t, step s = .next t ∧ runSteps k t = .next u := by
  rw [runSteps] at h
  split at h
  · exact ⟨_, ‹_›, h⟩
  · cases h
  · cases h

/-- Runs compose. -/
theorem runSteps_add {s t : State} {j : Nat} (k : Nat) (h : runSteps j s = .next t) :
    runSteps (j + k) s = runSteps k t := by
  induction j generalizing s with
  | zero => cases h; rw [Nat.zero_add]
  | succ j ih =>
    obtain ⟨s', hs, h⟩ := runSteps_succ_next h
    rw [Nat.add_right_comm, runSteps_succ _ hs, ih h]

/-- One step of the host's run, for any core. -/
theorem coreRun_succ (M : Host.Core) (k : Nat) (s : M.State) : M.run (k + 1) s = match M.step s with
    | .next s' => M.run k s'
    | .fault r => .fault r
    | .refused r => .refused r := rfl

theorem coreRun_next (M : Host.Core) (k : Nat) {s t : M.State} (h : M.step s = .next t) :
    M.run (k + 1) s = M.run k t := by rw [coreRun_succ, h]

theorem coreRun_fault (M : Host.Core) (k : Nat) {s : M.State} {r : M.Fault} (h : M.step s = .fault r) :
    M.run (k + 1) s = .fault r := by rw [coreRun_succ, h]

theorem coreRun_refused (M : Host.Core) (k : Nat) {s : M.State} {r : M.Refusal} (h : M.step s = .refused r) :
    M.run (k + 1) s = .refused r := by rw [coreRun_succ, h]

/-- The host's run of the core is `runSteps`. -/
theorem coreRun_eq_runSteps (k : Nat) (s : State) : Host.Core.run Sys2Proof.core k s = runSteps k s := by
  induction k generalizing s with
  | zero => rfl
  | succ k ih =>
    rw [runSteps]
    cases h : step s with
    | next t => exact (coreRun_next Sys2Proof.core k h).trans (ih t)
    | fault r => exact coreRun_fault Sys2Proof.core k h
    | refused r => exact coreRun_refused Sys2Proof.core k h

end Sys2Proof.Machine
end

