-- ==== Sys2Proof/Laws/Round.lean ====
section
/-! SUPPORT. The compression function's equation, its steps one by one, and the message words of a block. -/

namespace Sys2Proof.Machine

/-- Compress is the 64 steps, then the feed-forward (40_round_function.md R76). -/
theorem compress_eq (cv : Quad) (blk : List Byte) :
    compress cv blk = feedForward cv (mixSteps (messageWords blk) cv) := by
  rw [compress]

/-- Every step's message index names one of the sixteen words (40_round_function.md R74). -/
theorem msgIndex_lt : ∀ i < 64, msgIndex i < 16 := by decide +kernel

/-- The schedule of sixteen message words: 64 steps, step i with word `g(i)` (40_round_function.md R74). -/
theorem schedule_getElem? {w : List Word} (hw : w.length = 16) {i : Nat} (hi : i < 64) :
    ∃ m, w[msgIndex i]? = some m ∧ (schedule w)[i]? = some (i, m) := by
  match w, hw with
  | [_, _, _, _, _, _, _, _, _, _, _, _, _, _, _, _], _ =>
    have := msgIndex_lt i hi
    refine ⟨_, List.getElem?_eq_getElem this, ?_⟩
    interval_cases i <;> rfl

theorem schedule_length {w : List Word} (hw : w.length = 16) : (schedule w).length = 64 := by
  match w, hw with
  | [_, _, _, _, _, _, _, _, _, _, _, _, _, _, _, _], _ => rfl

/-- Every scheduled step is one of the 64 (whatever the words). -/
theorem schedule_step_lt {w : List Word} {p : Nat × Word} (h : p ∈ schedule w) : p.1 < 64 := by
  simp only [schedule, List.mem_filterMap, List.mem_range, Option.map_eq_some_iff] at h
  obtain ⟨i, hi, m, -, rfl⟩ := h
  exact hi

/-- The working quad after the first n steps of a schedule. -/
def quadAfter (w : List Word) (q : Quad) (n : Nat) : Quad :=
  ((schedule w).take n).foldl (fun q p => mixStep p.1 p.2 q) q

@[simp] theorem quadAfter_zero (w : List Word) (q : Quad) : quadAfter w q 0 = q := rfl

theorem quadAfter_succ {w : List Word} (q : Quad) {n : Nat} {m : Word} (h : (schedule w)[n]? = some (n, m)) :
    quadAfter w q (n + 1) = mixStep n m (quadAfter w q n) := by
  simp [quadAfter, List.take_add_one, h]

theorem mixSteps_eq_quadAfter {w : List Word} (hw : w.length = 16) (q : Quad) : mixSteps w q = quadAfter w q 64 := by
  rw [quadAfter, List.take_of_length_le (by rw [schedule_length hw]), mixSteps]

/-- A block of 64 bytes has sixteen message words. -/
theorem messageWords_length {blk : List Byte} (h : blk.length = 64) : (messageWords blk).length = 16 := by
  have key : ∀ (n : Nat) (l : List Byte), l.length = 4 * n → (messageWords l).length = n := by
    intro n
    induction n with
    | zero =>
      intro l hl
      rw [List.length_eq_zero_iff.1 hl]
      rfl
    | succ n ih =>
      intro l hl
      match l, hl with
      | b0 :: b1 :: b2 :: b3 :: rest, hl =>
        simp only [messageWords, List.length_cons]
        rw [ih rest (by simp only [List.length_cons] at hl; omega)]
  exact key 16 blk h

/-- Every rotation amount is the table's entry and lies in 4..23 (40_round_function.md R71). -/
theorem rAmount_spec (i : Nat) (hi : i < 64) : 4 ≤ rAmount i ∧ rAmount i ≤ 23 ∧ rTable[i]? = some (rAmount i) := by
  have hl : i < rTable.length := hi
  have hr : ∀ r ∈ rTable, 4 ≤ r ∧ r ≤ 23 := by decide
  rw [rAmount, List.getD_eq_getElem _ _ hl, List.getElem?_eq_getElem hl]
  exact ⟨(hr _ (List.getElem_mem hl)).1, (hr _ (List.getElem_mem hl)).2, rfl⟩

/-- Every step's constant is the table's entry (40_round_function.md R70). -/
theorem kConst_spec (i : Nat) (hi : i < 64) : kTable[i]? = some (kConst i) := by
  have hl : i < kTable.length := hi
  rw [kConst, List.getD_eq_getElem _ _ hl, List.getElem?_eq_getElem hl]

/-- Word j of a list of bytes, wherever its four bytes exist (20_memory.md R31). -/
theorem messageWords_getElem? (blk : List Byte) (j : Nat) {b0 b1 b2 b3 : Byte}
    (h0 : blk[4 * j]? = some b0) (h1 : blk[4 * j + 1]? = some b1) (h2 : blk[4 * j + 2]? = some b2)
    (h3 : blk[4 * j + 3]? = some b3) : (messageWords blk)[j]? = some (le32 b0 b1 b2 b3) := by
  induction j generalizing blk with
  | zero =>
    match blk with
    | [] => simp at h0
    | [_] => simp at h1
    | [_, _] => simp at h2
    | [_, _, _] => simp at h3
    | c0 :: c1 :: c2 :: c3 :: rest =>
      simp only [Nat.mul_zero, List.getElem?_cons_zero, Option.some.injEq, Nat.zero_add, List.getElem?_cons_succ] at h0 h1 h2 h3
      subst h0 h1 h2 h3
      rfl
  | succ j ih =>
    match blk with
    | [] | [_] | [_, _] | [_, _, _] => exact absurd h0 (by rw [List.getElem?_eq_none (by simp only [List.length]; omega)]; exact nofun)
    | c0 :: c1 :: c2 :: c3 :: rest => exact ih rest h0 h1 h2 h3

/-- The rotation in exact integers (00_scope.md R7). -/
theorem rotl32_toNat (x : Word) {r : Nat} (h0 : 0 < r) (h : r < 32) :
    (rotl32 x r).toNat = x.toNat * 2 ^ r % 2 ^ 32 + x.toNat / 2 ^ (32 - r) := by
  have hx := x.isLt
  have h2 : x.toNat / 2 ^ (32 - r) < 2 ^ r := by
    rw [Nat.div_lt_iff_lt_mul (by positivity), ← Nat.pow_add, show r + (32 - r) = 32 by omega]; exact hx
  have h1 : x.toNat * 2 ^ r % 2 ^ 32 = 2 ^ r * (x.toNat % 2 ^ (32 - r)) := by
    rw [show (2 : Nat) ^ 32 = 2 ^ r * 2 ^ (32 - r) by rw [← Nat.pow_add, show r + (32 - r) = 32 by omega],
      Nat.mul_comm, Nat.mul_mod_mul_left]
  rw [rotl32, BitVec.toNat_or, BitVec.toNat_shiftLeft, BitVec.toNat_ushiftRight, Nat.shiftLeft_eq,
    Nat.shiftRight_eq_div_pow, h1, Nat.two_pow_add_eq_or_of_lt h2]

/-- A rotation loses no bit. -/
theorem rotl32_inj {x y : Word} {n : Nat} (h0 : 0 < n) (h : n < 32) (e : rotl32 x n = rotl32 y n) : x = y := by
  have e' := congrArg BitVec.toNat e
  rw [rotl32_toNat x h0 h, rotl32_toNat y h0 h] at e'
  have key : ∀ v : Nat, v < 2 ^ 32 → v * 2 ^ n % 2 ^ 32 = 2 ^ n * (v % 2 ^ (32 - n)) := fun v _ => by
    rw [show (2 : Nat) ^ 32 = 2 ^ n * 2 ^ (32 - n) by rw [← Nat.pow_add, show n + (32 - n) = 32 by omega],
      Nat.mul_comm, Nat.mul_mod_mul_left]
  have lt : ∀ v : Nat, v < 2 ^ 32 → v / 2 ^ (32 - n) < 2 ^ n := fun v hv => by
    rw [Nat.div_lt_iff_lt_mul (by positivity), ← Nat.pow_add, show n + (32 - n) = 32 by omega]; exact hv
  rw [key _ x.isLt, key _ y.isLt] at e'
  have hd := congrArg (· / 2 ^ n) e'
  have hm := congrArg (· % 2 ^ n) e'
  simp only [Nat.mul_add_mod, Nat.mod_eq_of_lt (lt _ x.isLt), Nat.mod_eq_of_lt (lt _ y.isLt)] at hm
  simp only [Nat.mul_add_div (show 0 < 2 ^ n by positivity), Nat.div_eq_of_lt (lt _ x.isLt),
    Nat.div_eq_of_lt (lt _ y.isLt), Nat.add_zero] at hd
  apply BitVec.eq_of_toNat_eq
  rw [← Nat.div_add_mod x.toNat (2 ^ (32 - n)), ← Nat.div_add_mod y.toNat (2 ^ (32 - n)), hd, hm]

end Sys2Proof.Machine
end

