-- ==== Sys2Proof/Machine/Assembler.lean ====
section
/-! DEFINITION. The assembler syntax of 30_encoding.md R54: reading a written command, writing one, and the listing of its
encoding. Text outside the hardware; characters are held in lists. -/

namespace Sys2Proof.Machine

/-- Which operands a mnemonic is written with (30_encoding.md R54). -/
inductive OperandForm where
  /-- `MNEMONIC`. -/
  | none (i : Instr)
  /-- `MNEMONIC idx`. -/
  | idx (build : BitVec 7 → Instr)
  /-- `MNEMONIC data`, with the largest data value. -/
  | data (max : Nat) (build : Nat → Instr)
  /-- `MNEMONIC idx, data`. -/
  | idxData (build : BitVec 7 → Word → Instr)

/-- The mnemonics of 42_state_commands.md. -/
def stateForms : List (List Char × OperandForm) :=
  [(['N', 'O', 'P'], .none .nop),
   (['I', 'N', 'I', 'T'], .none .init),
   (['S', 'E', 'T', 'C', 'V'], .idxData .setcv),
   (['G', 'E', 'T', 'C', 'V'], .idx .getcv),
   (['G', 'E', 'T', 'D', 'I', 'G'], .idx .getdig),
   (['R', 'D', 'S', 'T', 'A', 'T'], .none .rdstat)]

/-- The mnemonics of 43_block_commands.md; PUTB's data is 0..255 (30_encoding.md R54). -/
def blockForms : List (List Char × OperandForm) :=
  [(['P', 'U', 'T', 'B'], .data 255 fun v => .putb (BitVec.ofNat 8 v)),
   (['P', 'U', 'T', 'W'], .data (2 ^ 32 - 1) fun v => .putw (BitVec.ofNat 32 v)),
   (['C', 'L', 'R', 'B', 'U', 'F'], .none .clrbuf),
   (['C', 'O', 'M', 'P', 'R', 'E', 'S', 'S'], .none .compress)]

/-- The mnemonics of 44_padding_commands.md and 45_table_commands.md. -/
def paddingForms : List (List Char × OperandForm) :=
  [(['S', 'E', 'T', 'L', 'E', 'N'], .idxData .setlen),
   (['G', 'E', 'T', 'L', 'E', 'N'], .idx .getlen),
   (['P', 'A', 'D', 'L', 'E', 'N'], .none .padlen),
   (['P', 'A', 'D', 'B', 'Y', 'T', 'E'], .idx .padbyte),
   (['R', 'D', 'K'], .idx .rdk),
   (['R', 'D', 'R'], .idx .rdr)]

/-- Every mnemonic with its operand form. -/
def operandForms : List (List Char × OperandForm) := stateForms ++ blockForms ++ paddingForms

/-- A letter in upper case: "Mnemonics are case-insensitive" (30_encoding.md R54). -/
def upperCase (c : Char) : Char :=
  if 'a'.toNat ≤ c.toNat ∧ c.toNat ≤ 'z'.toNat then Char.ofNat (c.toNat - 32) else c

/-- The value of a digit of a written number; hexadecimal digits in either case (log entry 15). -/
def digitValue? (base : Nat) (c : Char) : Option Nat :=
  let u := upperCase c
  let v :=
    if '0'.toNat ≤ u.toNat ∧ u.toNat ≤ '9'.toNat then u.toNat - '0'.toNat
    else if 'A'.toNat ≤ u.toNat ∧ u.toNat ≤ 'F'.toNat then u.toNat - 'A'.toNat + 10
    else base
  if v < base then some v else none

/-- The value of digits, the most significant first, continuing `acc`. -/
def digitsValue? (base : Nat) : List Char → Nat → Option Nat
  | [], acc => some acc
  | c :: cs, acc =>
    match digitValue? base c with
    | some v => digitsValue? base cs (base * acc + v)
    | none => none

/-- A decimal number of at least one digit. DESIGN CHOICE: leading zeros are read, a point R54 leaves open (log entry 15). -/
def decimal? : List Char → Option Nat
  | [] => none
  | c :: cs => digitsValue? 10 (c :: cs) 0

/-- `data`: "a decimal number or a hexadecimal number with prefix `0x`" (30_encoding.md R54). -/
def number? : List Char → Option Nat
  | '0' :: 'x' :: c :: cs => digitsValue? 16 (c :: cs) 0
  | cs => decimal? cs

/-- `idx`: a decimal number that fits the 7-bit field (30_encoding.md R48, R54). One above its command's range is written,
and refused by decode. -/
def idxText? (cs : List Char) : Option (BitVec 7) :=
  match decimal? cs with
  | some v => if v < 128 then some (BitVec.ofNat 7 v) else none
  | none => none

/-- `data` up to a largest value (30_encoding.md R54). -/
def dataText? (max : Nat) (cs : List Char) : Option Nat :=
  match number? cs with
  | some v => if v ≤ max then some v else none
  | none => none

/-- The operands of a form, as written after the mnemonic and one space; two operands are parted by a comma and one space
(log entry 15). -/
def OperandForm.read : OperandForm → List Char → Option Instr
  | .none i, [] => some i
  | .none _, _ => Option.none
  | .idx build, cs => (idxText? cs).map build
  | .data max build, cs => (dataText? max cs).map build
  | .idxData build, cs =>
    match cs.dropWhile (· ≠ ',') with
    | ',' :: ' ' :: ds =>
      match idxText? (cs.takeWhile (· ≠ ',')), dataText? (2 ^ 32 - 1) ds with
      | some j, some v => some (build j (BitVec.ofNat 32 v))
      | _, _ => Option.none
    | _ => Option.none

/-- A written command (30_encoding.md R54); none where the text is no command. DESIGN CHOICE: one space may trail a mnemonic
that takes no operand, a point R54 leaves open (log entry 15). -/
def assemble (text : List Char) : Option Instr :=
  match operandForms.find? (fun f => f.1 == (text.takeWhile (· ≠ ' ')).map upperCase) with
  | some f => f.2.read ((text.dropWhile (· ≠ ' ')).drop 1)
  | none => Option.none

/-- A word as eight upper-case hexadecimal digits with prefix `0x`, as a listing writes it (30_encoding.md R54). -/
def wordText (v : Word) : List Char :=
  '0' :: 'x' :: (List.range 8).map fun j => upperCase (hexDigit (v.toNat / 16 ^ (7 - j) % 16))

/-- The listing of a command's encoding, `CMD=0x........ DIN=0x........` (30_encoding.md R54). -/
def listing (i : Instr) : List Char :=
  ['C', 'M', 'D', '='] ++ wordText (encode i).cmd ++ [' ', 'D', 'I', 'N', '='] ++ wordText (encode i).din

/-- A number below 1000 in decimal, without leading zeros. -/
def decimalText (n : Nat) : List Char :=
  (if n < 100 then [] else [hexDigit (n / 100)]) ++
    (if n < 10 then [] else [hexDigit (n / 10 % 10)]) ++ [hexDigit (n % 10)]

/-- A command as written (30_encoding.md R54), data in hexadecimal. -/
def assembly : Instr → List Char
  | .nop => ['N', 'O', 'P']
  | .init => ['I', 'N', 'I', 'T']
  | .setcv idx din => ['S', 'E', 'T', 'C', 'V', ' '] ++ decimalText idx.toNat ++ [',', ' '] ++ wordText din
  | .getcv idx => ['G', 'E', 'T', 'C', 'V', ' '] ++ decimalText idx.toNat
  | .getdig idx => ['G', 'E', 'T', 'D', 'I', 'G', ' '] ++ decimalText idx.toNat
  | .rdstat => ['R', 'D', 'S', 'T', 'A', 'T']
  | .putb byte => ['P', 'U', 'T', 'B', ' '] ++ wordText (byte.setWidth 32)
  | .putw din => ['P', 'U', 'T', 'W', ' '] ++ wordText din
  | .clrbuf => ['C', 'L', 'R', 'B', 'U', 'F']
  | .compress => ['C', 'O', 'M', 'P', 'R', 'E', 'S', 'S']
  | .setlen idx din => ['S', 'E', 'T', 'L', 'E', 'N', ' '] ++ decimalText idx.toNat ++ [',', ' '] ++ wordText din
  | .getlen idx => ['G', 'E', 'T', 'L', 'E', 'N', ' '] ++ decimalText idx.toNat
  | .padlen => ['P', 'A', 'D', 'L', 'E', 'N']
  | .padbyte idx => ['P', 'A', 'D', 'B', 'Y', 'T', 'E', ' '] ++ decimalText idx.toNat
  | .rdk idx => ['R', 'D', 'K', ' '] ++ decimalText idx.toNat
  | .rdr idx => ['R', 'D', 'R', ' '] ++ decimalText idx.toNat

end Sys2Proof.Machine
end

