-- ==== Sys2Proof/Tests/Slice0.lean ====
section
/-! SUPPORT. The model's own tests: the well-formedness checks, every command's decoding from a word written out from
30_encoding.md R46 and R50, one or two single steps per command with results from 95_test_vectors.md, and for every
obligation with hypotheses a theorem that meets them. -/

namespace Sys2Proof.Tests

open Sys2Proof.Machine

/-! ## Small states and the result of one presented command -/

/-- A full buffer of zero bytes, as 64 PUTB 0 leave it after reset. -/
def full : State :=
  { State.reset with buf := Memory.writeBytes [] 0 (List.replicate 64 0), bcnt := 64, loadable := false }

/-- The state after reset with another LEN. -/
def withLen (n : Nat) : State := { State.reset with len := BitVec.ofNat 64 n }

/-- The state after reset with `n` zero bytes pushed. -/
def pushed (n : Nat) : State :=
  { State.reset with
    buf := Memory.writeBytes [] 0 (List.replicate n 0), bcnt := BitVec.ofNat 7 n, loadable := false }

/-- The next state, where there is one. -/
def after : Host.Outcome State Fault Refusal → Option State
  | .next t => some t
  | _ => none

/-- The state after one step that presents a command word and a DIN. -/
def presented (s : State) (cmd din : Word) : Option State := after (step (s.withCommand ⟨cmd, din⟩))

/-- The response that step gives. -/
def answered (s : State) (cmd din : Word) : Option Response := (presented s cmd din).bind fun t => t.responses.getLast?

/-! ## Well-formedness refuses an ill-formed term, check by check (30_encoding.md R48, R50) -/

theorem test_wf_setcv : Instr.WellFormed (.setcv 3 0) ∧ ¬ Instr.WellFormed (.setcv 4 0) := by decide
theorem test_wf_getcv : Instr.WellFormed (.getcv 3) ∧ ¬ Instr.WellFormed (.getcv 4) := by decide
theorem test_wf_getdig : Instr.WellFormed (.getdig 15) ∧ ¬ Instr.WellFormed (.getdig 16) := by decide
theorem test_wf_setlen : Instr.WellFormed (.setlen 1 0) ∧ ¬ Instr.WellFormed (.setlen 2 0) := by decide
theorem test_wf_getlen : Instr.WellFormed (.getlen 1) ∧ ¬ Instr.WellFormed (.getlen 2) := by decide
theorem test_wf_padbyte : Instr.WellFormed (.padbyte 71) ∧ ¬ Instr.WellFormed (.padbyte 72) := by decide
theorem test_wf_rdk : Instr.WellFormed (.rdk 63) ∧ ¬ Instr.WellFormed (.rdk 64) := by decide
theorem test_wf_rdr : Instr.WellFormed (.rdr 63) ∧ ¬ Instr.WellFormed (.rdr 64) := by decide

/-! ## Decoding of written words: RSV (17 bits), IDX (7 bits), OP (8 bits), from 30_encoding.md R46 and R50 -/

theorem test_decode_nop :
    decode ⟨0b00000000000000000_0000000_00000000, 0xFFFFFFFF⟩ = .command .nop := by decide
theorem test_decode_init : decode ⟨0b00000000000000000_0000000_00000001, 0⟩ = .command .init := by decide
theorem test_decode_setcv :
    decode ⟨0b00000000000000000_0000010_00000010, 0x98BADCFE⟩ = .command (.setcv 2 0x98BADCFE) := by decide
theorem test_decode_getcv : decode ⟨0b00000000000000000_0000011_00000011, 0⟩ = .command (.getcv 3) := by decide
theorem test_decode_getdig : decode ⟨0b00000000000000000_0001111_00000100, 0⟩ = .command (.getdig 15) := by decide
theorem test_decode_rdstat : decode ⟨0b00000000000000000_0000000_00000101, 0⟩ = .command .rdstat := by decide
theorem test_decode_putb :
    decode ⟨0b00000000000000000_0000000_00010000, 0xFFFFFF41⟩ = .command (.putb 0x41) := by decide
theorem test_decode_putw :
    decode ⟨0b00000000000000000_0000000_00010001, 0x80636261⟩ = .command (.putw 0x80636261) := by decide
theorem test_decode_clrbuf : decode ⟨0b00000000000000000_0000000_00010010, 0⟩ = .command .clrbuf := by decide
theorem test_decode_compress : decode ⟨0b00000000000000000_0000000_00010011, 0⟩ = .command .compress := by decide
theorem test_decode_setlen :
    decode ⟨0b00000000000000000_0000001_00100000, 0x20000000⟩ = .command (.setlen 1 0x20000000) := by decide
theorem test_decode_getlen : decode ⟨0b00000000000000000_0000001_00100001, 0⟩ = .command (.getlen 1) := by decide
theorem test_decode_padlen : decode ⟨0b00000000000000000_0000000_00100010, 0⟩ = .command .padlen := by decide
theorem test_decode_padbyte : decode ⟨0b00000000000000000_1000111_00100011, 0⟩ = .command (.padbyte 71) := by decide
theorem test_decode_rdk : decode ⟨0b00000000000000000_0111111_00110000, 0⟩ = .command (.rdk 63) := by decide
theorem test_decode_rdr : decode ⟨0b00000000000000000_0111111_00110001, 0⟩ = .command (.rdr 63) := by decide

/-- The illegal words of 95_test_vectors.md section 4.5, each with its reason. -/
theorem test_decode_illegal :
    decode ⟨0x00004823, 0⟩ = .illegal (.indexOutOfRange 0x23 72) ∧
    decode ⟨0x00000006, 0⟩ = .illegal (.reservedOpcode 0x06) ∧
    decode ⟨0x0000000F, 0⟩ = .illegal (.reservedOpcode 0x0F) ∧
    decode ⟨0x00000014, 0⟩ = .illegal (.reservedOpcode 0x14) ∧
    decode ⟨0x00000024, 0⟩ = .illegal (.reservedOpcode 0x24) ∧
    decode ⟨0x00000032, 0⟩ = .illegal (.reservedOpcode 0x32) ∧
    decode ⟨0x000000FF, 0⟩ = .illegal (.reservedOpcode 0xFF) ∧
    decode ⟨0x00008000, 0⟩ = .illegal (.reservedBits 1) ∧
    decode ⟨0x80000011, 0⟩ = .illegal (.reservedBits 0x10000) ∧
    decode ⟨0x00007F31, 0⟩ = .illegal (.indexOutOfRange 0x31 127) ∧
    decode ⟨0x00000113, 0⟩ = .illegal (.indexOutOfRange 0x13 1) := by decide

/-- The table word carries CMD in bits 31..0 and DIN in bits 63..32. -/
theorem test_table_word : decodeTableWord 64 0x80636261_00000011 = some (.putw 0x80636261) ∧
    decodeTableWord 32 0x00004723 = some (.padbyte 71) ∧ decodeTableWord 32 0x00004823 = none := by decide

/-- The first step after reset runs the word placed at the port. -/
theorem test_fetch_word :
    (after (step (State.reset.withFetchWord 64 0x80636261_00000011))).map (fun t => (t.bcnt, t.responses)) =
      some (4, [⟨.ok, 0⟩]) := by decide

/-! ## One step each; results from 95_test_vectors.md sections 4.1 to 4.4 -/

theorem test_nop_ignores_din :
    (presented State.reset 0x00000000 0xFFFFFFFF) = some (State.reset.answer ⟨.ok, 0⟩) := by decide
theorem test_nop_index_is_illegal : answered State.reset 0x00000100 0 = some ⟨.illegalCommand, 0⟩ := by decide

theorem test_init_keeps_len : (presented { pushed 1 with len := 5 } 0x00000001 0).map
    (fun t => (t.cv, t.bcnt, t.loadable, t.len)) =
      some (⟨0x67452301, 0xEFCDAB89, 0x98BADCFE, 0x10325476⟩, 0, true, 5) := by decide

theorem test_setcv_word_d : (presented State.reset 0x00000302 0).map (fun t => (t.cv, t.responses)) =
    some (⟨0x67452301, 0xEFCDAB89, 0x98BADCFE, 0⟩, [⟨.ok, 0⟩]) := by decide
theorem test_setcv_locked : answered (pushed 1) 0x00000102 5 = some ⟨.stateLocked, 0⟩ := by decide

theorem test_getcv_word_d : answered State.reset 0x00000303 0 = some ⟨.ok, 0x10325476⟩ := by decide
theorem test_getcv_out_of_range : answered State.reset 0x00000403 0 = some ⟨.illegalCommand, 0⟩ := by decide

theorem test_getdig_byte_order : answered State.reset 0x00000704 0 = some ⟨.ok, 0xEF⟩ := by decide
theorem test_getdig_inner_byte : answered { State.reset with cv := ⟨0x67452301, 0xA1B2C3D4, 0x98BADCFE, 0x10325476⟩ }
    0x00000504 0 = some ⟨.ok, 0xC3⟩ := by decide

theorem test_rdstat_after_reset : answered State.reset 0x00000005 0 = some ⟨.ok, 0x100⟩ := by decide
theorem test_rdstat_full : answered full 0x00000005 0 = some ⟨.ok, 0x40⟩ := by decide

theorem test_putb_low_byte : (presented State.reset 0x00000010 0xFFFFFF41).map
    (fun t => (t.buf, t.bcnt, t.loadable)) = some ([(0, 0x41)], 1, false) := by decide
theorem test_putb_full : answered full 0x00000010 1 = some ⟨.invalidBlockSize, 0⟩ := by decide

theorem test_putw_unaligned : (presented (pushed 1) 0x00000011 0x11223344).map (fun t => (t.buf, t.bcnt)) =
    some ([(0, 0), (1, 0x44), (2, 0x33), (3, 0x22), (4, 0x11)], 5) := by decide
theorem test_putw_does_not_fit : (presented (pushed 61) 0x00000011 1) =
    some ((pushed 61).answer ⟨.invalidBlockSize, 0⟩) := by decide

theorem test_clrbuf_keeps_gate_closed : (presented (pushed 10) 0x00000012 0).map (fun t => (t.bcnt, t.loadable)) =
    some (0, false) := by decide

theorem test_compress_zero_block : (presented full 0x00000013 0).map (fun t => (t.cv, t.bcnt, t.loadable)) =
    some (⟨0x031F1DAC, 0x6EA58ED0, 0x1FAB67B7, 0x74317791⟩, 0, false) := by decide +kernel
theorem test_compress_too_early : answered (pushed 63) 0x00000013 0 = some ⟨.invalidBlockSize, 0⟩ := by decide

theorem test_setlen_keeps_low_half : (presented (withLen 0x38) 0x00000120 1).map State.len = some 0x100000038 := by
  decide
theorem test_setlen_out_of_range : answered State.reset 0x00000220 1 = some ⟨.illegalCommand, 0⟩ := by decide

theorem test_getlen_high_half : answered (withLen 0xFFFFFFFF_00000000) 0x00000121 0 = some ⟨.ok, 0xFFFFFFFF⟩ := by
  decide

theorem test_padlen_56 : answered (withLen 0x38) 0x00000022 0 = some ⟨.ok, 0x48⟩ := by decide
theorem test_padlen_above_len_max : answered (withLen (2 ^ 61)) 0x00000022 0 = some ⟨.invalidLength, 0⟩ := by
  decide

theorem test_padbyte_length_field : answered (withLen 0x38) 0x00004123 0 = some ⟨.ok, 1⟩ := by decide
theorem test_padbyte_decode_first : answered (withLen (2 ^ 61)) 0x00004823 0 = some ⟨.illegalCommand, 0⟩ := by
  decide

theorem test_rdk_16 : answered State.reset 0x00001030 0 = some ⟨.ok, 0xF61E2562⟩ := by decide
theorem test_rdk_out_of_range : answered State.reset 0x00004030 0 = some ⟨.illegalCommand, 0⟩ := by decide

theorem test_rdr_19 : answered State.reset 0x00001331 0 = some ⟨.ok, 20⟩ := by decide
theorem test_rdr_50 : answered State.reset 0x00003231 0 = some ⟨.ok, 15⟩ := by decide

/-! ## Pure functions; results from 95_test_vectors.md sections 2, 3 and 7 -/

/-- Section 2.3, the rows of steps 31 and 47 with W[g(i)] = 0xFFFFFFFF. -/
theorem test_single_steps :
    mixStep 31 0xFFFFFFFF iv = ⟨0x10325476, 0x70F57B08, 0xEFCDAB89, 0x98BADCFE⟩ ∧
    mixStep 47 0xFFFFFFFF iv = ⟨0x10325476, 0x231746D7, 0xEFCDAB89, 0x98BADCFE⟩ := by decide

/-- Section 2.4: the padded block of "abc" (0x61, 0x62, 0x63). -/
theorem test_compress_abc : compress iv ([0x61, 0x62, 0x63] ++ pad 3) = ⟨0x98500190, 0xB04FD23C, 0x7D3F96D6, 0x727FE128⟩ := by
  decide +kernel

/-- Section 3: the row n = 56. -/
theorem test_pad_56 : zeroFill 56 = 63 ∧ padLen 56 = 72 ∧ (pad 56).drop 64 = [0xC0, 1, 0, 0, 0, 0, 0, 0] := by
  decide

/-- Section 7: the digest text of IV. -/
theorem test_digest_text : digestText iv = ['0', '1', '2', '3', '4', '5', '6', '7', '8', '9', 'a', 'b', 'c', 'd', 'e', 'f',
    'f', 'e', 'd', 'c', 'b', 'a', '9', '8', '7', '6', '5', '4', '3', '2', '1', '0'] := by decide

/-- 30_encoding.md R54: a written command, its listing, and mnemonics in either case. -/
theorem test_assemble : assemble ['p', 'a', 'd', 'B', 'Y', 'T', 'E', ' ', '7', '1'] = some (.padbyte 71) ∧
    assemble ['S', 'E', 'T', 'C', 'V', ' ', '2', ',', ' ', '0', 'x', '1', 'F'] = some (.setcv 2 0x1F) ∧
    listing (.putb 0xAA) = ['C', 'M', 'D', '=', '0', 'x', '0', '0', '0', '0', '0', '0', '1', '0', ' ',
      'D', 'I', 'N', '=', '0', 'x', '0', '0', '0', '0', '0', '0', 'A', 'A'] := by decide

/-- The host's own run of the core, three port transactions: reset, PUTB, and one with no command. -/
theorem test_core_run : (after (Host.Core.run Sys2Proof.core 3
    { State.reset with wasReset := false, port := [resetPulse, present ⟨0x00000010, 0x61⟩, ⟨false, none⟩] })).map
      (fun t => (t.bcnt, t.responses, t.port)) = some (1, [⟨.ok, 0⟩], []) := by decide

/-! ## The premises of the obligations are met, clause by clause at the edges of their ranges -/

theorem witness_DecodeOfEncode :
    Instr.WellFormed (.setcv 3 0xFFFFFFFF) ∧ Instr.WellFormed (.padbyte 71) ∧ Instr.WellFormed (.rdr 63) := by decide

theorem witness_EveryLegalWord : decode ⟨0x00000302, 0xFFFFFFFF⟩ = .command (.setcv 3 0xFFFFFFFF) ∧
    decode ⟨0x00000120, 7⟩ = .command (.setlen 1 7) ∧ decode ⟨0x00000011, 7⟩ = .command (.putw 7) ∧
    decode ⟨0x00000010, 0xFFFFFF00⟩ = .command (.putb 0) := by decide

/-- One illegal word under each disjunct, and a state on which the second clause runs. -/
theorem witness_IllegalEncodings : State.reset.wasReset = true ∧
    decode ⟨0x00008000, 0⟩ = .illegal (.reservedBits 1) ∧ decode ⟨0x06, 0⟩ = .illegal (.reservedOpcode 0x06) ∧
    decode ⟨0x0F, 0⟩ = .illegal (.reservedOpcode 0x0F) ∧ decode ⟨0x1F, 0⟩ = .illegal (.reservedOpcode 0x1F) ∧
    decode ⟨0x2F, 0⟩ = .illegal (.reservedOpcode 0x2F) ∧ decode ⟨0x32, 0⟩ = .illegal (.reservedOpcode 0x32) ∧
    decode ⟨0x0100, 0⟩ = .illegal (.indexOutOfRange 0x00 1) ∧ decode ⟨0x0221, 0⟩ = .illegal (.indexOutOfRange 0x21 2) ∧
    decode ⟨0x0403, 0⟩ = .illegal (.indexOutOfRange 0x03 4) ∧ decode ⟨0x1004, 0⟩ = .illegal (.indexOutOfRange 0x04 16) ∧
    decode ⟨0x4823, 0⟩ = .illegal (.indexOutOfRange 0x23 72) ∧
    decode ⟨0x4030, 0⟩ = .illegal (.indexOutOfRange 0x30 64) := by decide

/-- The data of each command that takes it, an illegal word, and a word under each disjunct of the last clause. -/
theorem witness_IgnoredDinBits : decode ⟨0x0002, 5⟩ = .command (.setcv 0 5) ∧ decode ⟨0x0011, 5⟩ = .command (.putw 5) ∧
    decode ⟨0x0020, 5⟩ = .command (.setlen 0 5) ∧ decode ⟨0x0010, 0x1FF⟩ = .command (.putb 0xFF) ∧
    decode ⟨0x0402, 5⟩ = .illegal (.indexOutOfRange 0x02 4) ∧ decode ⟨0x8010, 1⟩ = .illegal (.reservedBits 1) ∧
    (0x0010 : Word).toNat % 256 = 0x10 ∧ (0x1FF : Word).toNat % 256 = (0xFFFFFFFF : Word).toNat % 256 ∧
    (0x0013 : Word).toNat % 256 ∉ [0x02, 0x10, 0x11, 0x20] := by decide

theorem witness_StepRunsTheDecodedCommand :
    (State.reset.withCommand ⟨0x00004723, 0⟩).wasReset = true ∧
    (State.reset.withCommand ⟨0x00004723, 0⟩).port = ⟨false, some ⟨0x00004723, 0⟩⟩ :: [] ∧
    decode ⟨0x00004723, 0⟩ = .command (.padbyte 71) := by decide

theorem witness_PresentedEncoding : State.reset.wasReset = true := rfl

theorem witness_NoCommandNoChange : State.reset.port = [] ∧
    ({ State.reset with port := [⟨false, none⟩] } : State).port = ⟨false, none⟩ :: [] := by decide

theorem witness_NoCommandBeforeTheFirstReset :
    ({ State.reset with wasReset := false, port := [present ⟨0, 0⟩] } : State).wasReset = false ∧
    ({ State.reset with wasReset := false, port := [present ⟨0, 0⟩] } : State).port = ⟨false, some ⟨0, 0⟩⟩ :: [] := by
  decide

/-- Reset asserted together with a command, on a core that was never reset. -/
theorem witness_AssertedReset :
    ({ full with wasReset := false, port := [⟨true, some ⟨0x10, 1⟩⟩] } : State).port = ⟨true, some ⟨0x10, 1⟩⟩ :: [] := by
  decide

/-- Each index, open and locked; index 4 is the first one out of range. -/
theorem witness_Setcv : State.reset.loadable = true ∧ (pushed 1).loadable = false ∧
    (3 : BitVec 7).toNat ≤ 3 ∧ 3 < (4 : BitVec 7).toNat ∧ 3 < (127 : BitVec 7).toNat := by decide

theorem witness_Getcv : 3 < (4 : BitVec 7).toNat ∧ 3 < (127 : BitVec 7).toNat := by decide

theorem witness_Getdig : [iv.a, iv.b, iv.c, iv.d][(0 : BitVec 7).toNat / 4]? = some iv.a ∧
    [iv.a, iv.b, iv.c, iv.d][(15 : BitVec 7).toNat / 4]? = some iv.d ∧ 15 < (16 : BitVec 7).toNat := by decide

theorem witness_Putb : full.bcnt = 64 ∧ (pushed 63).bcnt.toNat < 64 ∧ (pushed 0).bcnt.toNat < 64 := by decide

theorem witness_Putw : 60 < (pushed 61).bcnt.toNat ∧ 60 < full.bcnt.toNat ∧ (pushed 60).bcnt.toNat ≤ 60 := by decide

/-- Each clause runs: the last position, the last four, and both refusals. -/
theorem witness_Appends :
    ((pushed 63).bcnt.toNat < 64 ∧ ∃ t, exec (.putb 7) (pushed 63) = .next t) ∧
    ((pushed 60).bcnt.toNat ≤ 60 ∧ ∃ t, exec (.putw 7) (pushed 60) = .next t) ∧
    (64 ≤ full.bcnt.toNat ∧ ∃ t, exec (.putb 7) full = .next t) ∧
    (60 < (pushed 61).bcnt.toNat ∧ ∃ t, exec (.putw 7) (pushed 61) = .next t) :=
  ⟨⟨by decide, _, rfl⟩, ⟨by decide, _, rfl⟩, ⟨by decide, _, rfl⟩, ⟨by decide, _, rfl⟩⟩

/-- The last word of a block, pushed and then read in a full buffer. -/
theorem witness_AlignedPutw : ∃ t : State,
    (pushed 60).bcnt.toNat % 4 = 0 ∧ (pushed 60).bcnt.toNat ≤ 60 ∧ exec (.putw 0x11223344) (pushed 60) = .next t ∧
    t.HoldsBlock (List.replicate 60 0 ++ [0x44, 0x33, 0x22, 0x11]) ∧
    ∀ j < 4, t.buf.read ((pushed 60).bcnt.toNat + j) = t.buf.read ((pushed 60).bcnt.toNat + j) :=
  ⟨_, by decide, by decide, rfl, by decide, fun _ _ => rfl⟩

theorem witness_MessageWords :
    (List.replicate 60 (0 : Byte) ++ [1, 2, 3, 4]).length = 64 ∧
    (List.replicate 60 (0 : Byte) ++ [1, 2, 3, 4])[4 * 15]? = some 1 ∧
    (List.replicate 60 (0 : Byte) ++ [1, 2, 3, 4])[4 * 15 + 1]? = some 2 ∧
    (List.replicate 60 (0 : Byte) ++ [1, 2, 3, 4])[4 * 15 + 2]? = some 3 ∧
    (List.replicate 60 (0 : Byte) ++ [1, 2, 3, 4])[4 * 15 + 3]? = some 4 := by decide

/-- A count just below a full block, and a full block. -/
theorem witness_Compress : (pushed 63).bcnt ≠ 64 ∧ full.bcnt = 64 ∧ full.HoldsBlock (List.replicate 64 0) := by
  decide

/-- Both directions of the equivalence are met: a full count over an empty buffer (no run reaches it). -/
theorem witness_CompressFaults : ({ full with buf := [] } : State).bcnt = 64 ∧
    ({ full with buf := [] } : State).buf.read 63 = none ∧
    exec .compress { full with buf := [] } = .fault .unwrittenBufferByte := ⟨by decide, by decide, rfl⟩

theorem witness_RoundFunction : 15 ≤ 15 ∧ 16 ≤ 16 ∧ 31 ≤ 31 ∧ 32 ≤ 32 ∧ 47 ≤ 47 ∧ 48 ≤ 48 ∧ 63 ≤ 63 ∧
    msgIndex (16 * 3 + 15) = 9 := by decide

theorem witness_StepInExactIntegers : 0 < 64 ∧ 63 < 64 := by decide

theorem witness_MixSteps : mixSteps (messageWords (List.replicate 64 0)) iv = mixSteps (messageWords (List.replicate 64 0)) iv :=
  rfl

theorem witness_Compression : (List.replicate 64 (0 : Byte)).length = 64 := by decide

theorem witness_Setlen : 1 < (2 : BitVec 7).toNat ∧ 1 < (127 : BitVec 7).toNat := by decide

theorem witness_Getlen : 1 < (2 : BitVec 7).toNat ∧ 1 < (127 : BitVec 7).toNat := by decide

/-- LEN_MAX and the length above it. -/
theorem witness_Padlen : (withLen (2 ^ 61 - 1)).len.toNat ≤ 2 ^ 61 - 1 ∧ 2 ^ 61 - 1 < (withLen (2 ^ 61)).len.toNat := by
  decide

/-- The edges of every clause, at n = 56 (Z = 63, PadLen = 72) and n = 55 (Z = 0, PadLen = 9). -/
theorem witness_Padbyte : 71 < (72 : BitVec 7).toNat ∧ (71 : BitVec 7).toNat ≤ 71 ∧
    2 ^ 61 - 1 < (withLen (2 ^ 61)).len.toNat ∧ (withLen 56).len.toNat ≤ 2 ^ 61 - 1 ∧
    ((55 - ((withLen 56).len.toNat : Int)) % 64).toNat = 63 ∧ ((55 - ((withLen 55).len.toNat : Int)) % 64).toNat = 0 ∧
    9 + 63 ≤ (72 : BitVec 7).toNat ∧ 9 + 0 ≤ (9 : BitVec 7).toNat ∧ 1 ≤ (1 : BitVec 7).toNat ∧
    (63 : BitVec 7).toNat ≤ 63 ∧ (64 : BitVec 7).toNat = 63 + 1 + 0 ∧ (71 : BitVec 7).toNat = 63 + 1 + 7 := by
  decide

theorem witness_PaddedLength : 55 % 64 ≤ 55 ∧ 56 ≤ 56 % 64 ∧ 119 % 64 = 55 ∧ 120 % 64 = 56 := by decide

theorem witness_PadBytes : (0 + (1 + 55 + 8)) % 64 = 0 := by decide

theorem witness_LengthField : 2 ^ 61 - 1 ≤ 2 ^ 61 - 1 := Nat.le_refl _

theorem witness_Rdk : (0 : BitVec 7).toNat ≤ 63 ∧ (63 : BitVec 7).toNat ≤ 63 ∧ 63 < (64 : BitVec 7).toNat := by decide

theorem witness_Rdr : 63 < (64 : BitVec 7).toNat ∧
    [[7, 12, 17, 22], [5, 9, 14, 20], [4, 11, 16, 23], [6, 10, 15, 21]][(63 : BitVec 7).toNat / 16]? =
      some [6, 10, 15, 21] ∧ [6, 10, 15, 21][(63 : BitVec 7).toNat % 4]? = some 21 := by decide

/-- A refused command as a term, and an illegal word presented at the port. -/
theorem witness_ErrorsChangeNothing :
    (∃ (t : State) (r : Response), exec (.putb 1) full = .next t ∧ t.responses = full.responses ++ [r] ∧ r.status ≠ .ok) ∧
    ∃ (s t : State) (r : Response), s.port = ⟨false, some ⟨0x00008001, 0⟩⟩ :: [] ∧ step s = .next t ∧
      t.responses = s.responses ++ [r] ∧ r.status ≠ .ok :=
  ⟨⟨_, ⟨.invalidBlockSize, 0⟩, rfl, rfl, by decide⟩,
    State.reset.withCommand ⟨0x00008001, 0⟩, _, ⟨.illegalCommand, 0⟩, rfl, rfl, rfl, by decide⟩

/-- A command of each kind that the DOUT clause names runs to a next state. -/
theorem witness_EveryCommandGivesOneResponse : (∃ t, exec .nop full = .next t) ∧ (∃ t, exec .init full = .next t) ∧
    (∃ t, exec (.setcv 0 1) full = .next t) ∧ (∃ t, exec (.putb 1) full = .next t) ∧
    (∃ t, exec (.putw 1) full = .next t) ∧ (∃ t, exec .clrbuf full = .next t) ∧
    (∃ t, exec .compress State.reset = .next t) ∧ (∃ t, exec (.setlen 0 1) full = .next t) :=
  ⟨⟨_, rfl⟩, ⟨_, rfl⟩, ⟨_, rfl⟩, ⟨_, rfl⟩, ⟨_, rfl⟩, ⟨_, rfl⟩, ⟨_, rfl⟩, ⟨_, rfl⟩⟩

/-- Each status is raised. -/
theorem witness_Statuses :
    (∃ t, exec .compress State.reset = .next t ∧ t.responses = [] ++ [⟨.invalidBlockSize, 0⟩]) ∧
    (∃ t, exec .padlen (withLen (2 ^ 61)) = .next t ∧ t.responses = [] ++ [⟨.invalidLength, 0⟩]) ∧
    (∃ t, exec (.padbyte 9) (withLen 55) = .next t ∧ t.responses = [] ++ [⟨.illegalCommand, 0⟩]) ∧
    (∃ t, exec (.rdk 64) State.reset = .next t ∧ t.responses = [] ++ [⟨.illegalCommand, 0⟩]) ∧
    (∃ t, exec (.setcv 0 1) full = .next t ∧ t.responses = [] ++ [⟨.stateLocked, 0⟩]) ∧
    (∃ t, step (State.reset.withCommand ⟨0x06, 0⟩) = .next t ∧ t.responses = [] ++ [⟨.illegalCommand, 0⟩]) :=
  ⟨⟨_, rfl, rfl⟩, ⟨_, rfl, rfl⟩, ⟨_, rfl, rfl⟩, ⟨_, rfl, rfl⟩, ⟨_, rfl, rfl⟩, ⟨_, rfl, rfl⟩⟩

theorem witness_IllFormed : ¬ Instr.WellFormed (.padbyte 72) ∧ ¬ Instr.WellFormed (.setcv 127 0) := by decide

/-- Each of the three writers of CV runs to OK and to its error, at the edges of its range, and so does a command that is
none of them. -/
theorem witness_ChainingState :
    (∃ t, exec .init full = .next t ∧ t.responses = [] ++ [⟨.ok, 0⟩]) ∧
    (∃ t, exec (.setcv 3 1) State.reset = .next t ∧ t.responses = [] ++ [⟨.ok, 0⟩]) ∧
    (∃ t, exec (.setcv 4 1) State.reset = .next t ∧ t.responses = [] ++ [⟨.illegalCommand, 0⟩]) ∧
    (∃ t, exec (.setcv 3 1) full = .next t ∧ t.responses = [] ++ [⟨.stateLocked, 0⟩]) ∧
    (∃ t, exec .compress full = .next t ∧ t.responses = [] ++ [⟨.ok, 0⟩]) ∧
    (∃ t, exec .compress (pushed 63) = .next t ∧ t.responses = [] ++ [⟨.invalidBlockSize, 0⟩]) ∧
    (∃ t, exec (.putb 1) (pushed 63) = .next t ∧ t.responses = [] ++ [⟨.ok, 0⟩]) := by
  refine ⟨⟨_, rfl, rfl⟩, ⟨_, rfl, rfl⟩, ⟨_, rfl, rfl⟩, ⟨_, rfl, rfl⟩, ?_, ⟨_, rfl, rfl⟩, ⟨_, rfl, rfl⟩⟩
  have h : full.buf.block = some (List.replicate 64 0) := by decide
  exact ⟨State.answer { full with cv := compress full.cv (List.replicate 64 0), bcnt := 0, loadable := false } ⟨.ok, 0⟩,
    by simp only [exec, execCompress, h]; rfl, rfl⟩

theorem witness_FillCount :
    (∃ t, exec (.putb 1) (pushed 63) = .next t ∧ t.responses = [] ++ [⟨.ok, 0⟩]) ∧
    (∃ t, exec (.putw 1) (pushed 60) = .next t ∧ t.responses = [] ++ [⟨.ok, 0⟩]) ∧
    (∃ t, exec .clrbuf full = .next t ∧ t.responses = [] ++ [⟨.ok, 0⟩]) ∧
    (∃ t, exec (.putw 1) (pushed 61) = .next t ∧ t.responses = [] ++ [⟨.invalidBlockSize, 0⟩]) ∧
    64 < full.bcnt.toNat + 1 ∧ 64 < (pushed 61).bcnt.toNat + 4 ∧ full.bcnt.toNat ≤ 64 :=
  ⟨⟨_, rfl, rfl⟩, ⟨_, rfl, rfl⟩, ⟨_, rfl, rfl⟩, ⟨_, rfl, rfl⟩, by decide⟩

theorem witness_ResumeGate :
    (∃ t, exec .init full = .next t ∧ t.responses = [] ++ [⟨.ok, 0⟩]) ∧
    (∃ t, exec (.putw 1) State.reset = .next t ∧ t.responses = [] ++ [⟨.ok, 0⟩]) ∧
    (∃ t, exec .compress State.reset = .next t ∧ t.responses = [] ++ [⟨.invalidBlockSize, 0⟩]) ∧
    (∃ t, exec .clrbuf full = .next t ∧ t.responses = [] ++ [⟨.ok, 0⟩]) :=
  ⟨⟨_, rfl, rfl⟩, ⟨_, rfl, rfl⟩, ⟨_, rfl, rfl⟩, ⟨_, rfl, rfl⟩⟩

theorem witness_LengthAndBuffer : (∃ t, exec (.putb 1) State.reset = .next t) ∧
    (∃ t, exec (.setlen 1 1) State.reset = .next t) ∧ (∃ t, exec .init full = .next t) :=
  ⟨⟨_, rfl⟩, ⟨_, rfl⟩, ⟨_, rfl⟩⟩

theorem witness_ReadsAndSetters : (∃ idx, Instr.padbyte 127 = .padbyte idx) ∧
    (∃ idx din, Instr.setlen 2 5 = .setlen idx din) := ⟨⟨_, rfl⟩, ⟨_, _, rfl⟩⟩

theorem witness_CountInvariant : full.CountInv ∧ (∃ t, exec .init full = .next t) ∧ State.reset.CountInv ∧
    ∃ t, exec (.putw 1) State.reset = .next t := ⟨by decide, ⟨_, rfl⟩, by decide, ⟨_, rfl⟩⟩

/-- The invariant holds of a full buffer with a COMPRESS waiting, and the step runs. -/
theorem witness_EveryStep : ({ full with port := [present ⟨0x13, 0⟩] } : State).Inv ∧
    (after (step { full with port := [present ⟨0x13, 0⟩] })).isSome := by decide

theorem witness_ReadyCore : full.Inv ∧ full.wasReset = true := by decide

/-- Two states with one byte pushed that differ at position 1 only. -/
theorem witness_StaleBytes :
    ({ pushed 1 with port := [present ⟨0x11, 1⟩] } : State).AgreeBelowCount
      { pushed 1 with buf := [(0, 0), (1, 9)], port := [present ⟨0x11, 1⟩] } ∧
    (after (step { pushed 1 with port := [present ⟨0x11, 1⟩] })).isSome := by decide

/-- Two states that share LEN and nothing else that matters. -/
theorem witness_PaddingCommands : (withLen 56).len = ({ full with len := 56 } : State).len ∧
    (∃ idx, Instr.padbyte 71 = .padbyte idx) := ⟨by decide, _, rfl⟩

theorem witness_Resume : full.wasReset = true := rfl

theorem witness_Instances : ∃ sys' : System 2,
    (System.reset 2).stepAt 1 = .next sys' := ⟨_, rfl⟩

theorem witness_Hashing : full.wasReset = true ∧ ([] : List Byte).length ≤ lenMax := by decide

theorem witness_Attack : full.wasReset = true ∧ forgedLen ([0x41, 0x41] : List Byte).length [0x26] ≤ lenMax := by
  decide

end Sys2Proof.Tests
end

section
/-! SUPPORT. The writers of the state (10_state.md R10): `exec_next` once more with the answered response named, and the
settled statements of 10_state.md. -/

namespace Sys2Proof.Machine

/-! ## What a command that completes writes, and what it answers -/

/-- The state once `bytes` stand in the buffer from BCNT upwards, before the response (43_block_commands.md R110, R111). -/
def State.appended (s : State) (bytes : List Byte) : State :=
  { s with
    buf := s.buf.writeBytes s.bcnt.toNat bytes
    bcnt := s.bcnt + BitVec.ofNat 7 bytes.length
    loadable := false }

@[simp] theorem State.appended_cv (s : State) (bytes : List Byte) : (s.appended bytes).cv = s.cv := rfl
@[simp] theorem State.appended_buf (s : State) (bytes : List Byte) :
    (s.appended bytes).buf = s.buf.writeBytes s.bcnt.toNat bytes := rfl
@[simp] theorem State.appended_loadable (s : State) (bytes : List Byte) : (s.appended bytes).loadable = false := rfl
@[simp] theorem State.appended_len (s : State) (bytes : List Byte) : (s.appended bytes).len = s.len := rfl
@[simp] theorem State.appended_wasReset (s : State) (bytes : List Byte) :
    (s.appended bytes).wasReset = s.wasReset := rfl
@[simp] theorem State.appended_port (s : State) (bytes : List Byte) : (s.appended bytes).port = s.port := rfl
@[simp] theorem State.appended_responses (s : State) (bytes : List Byte) :
    (s.appended bytes).responses = s.responses := rfl

theorem State.appended_bcnt_toNat {s : State} {bytes : List Byte} (h : s.bcnt.toNat + bytes.length ≤ 64) :
    (s.appended bytes).bcnt.toNat = s.bcnt.toNat + bytes.length := bcnt_append_toNat h

/-- `Writes s i s'`: run from `s`, the command `i` completes with OK, and `s'` is what it has written by the time it
answers. One constructor per command that writes. -/
inductive Writes (s : State) : Instr → State → Prop where
  | init : Writes s .init { s with cv := iv, bcnt := 0, loadable := true }
  | setcv {idx : BitVec 7} {din : Word} {cv : Quad} (gate : s.loadable = true)
      (hcv : setCvWord? s.cv din idx.toNat = some cv) : Writes s (.setcv idx din) { s with cv := cv }
  | putb {b : Byte} (room : s.bcnt.toNat + 1 ≤ 64) : Writes s (.putb b) (s.appended [b])
  | putw {din : Word} (room : s.bcnt.toNat + 4 ≤ 64) : Writes s (.putw din) (s.appended (wordLanes din))
  | clrbuf : Writes s .clrbuf { s with bcnt := 0 }
  | compress {blk : List Byte} (full : s.bcnt = 64) (hblk : s.buf.block = some blk) :
      Writes s .compress { s with cv := Machine.compress s.cv blk, bcnt := 0, loadable := false }
  | setlen {idx : BitVec 7} {din : Word} {len : DWord} (hlen : setLenHalf? s.len din idx.toNat = some len) :
      Writes s (.setlen idx din) { s with len := len }

/-- What a command writes, it writes before its response is appended. -/
theorem Writes.responses_eq {i : Instr} {s s' : State} (h : Writes s i s') : s'.responses = s.responses := by
  cases h <;> rfl

/-- `exec_next` by command: one that completes either answers and writes nothing, or writes and answers (OK, 0). -/
theorem exec_next_writes {i : Instr} {s t : State} (h : exec i s = .next t) :
    (∃ r, t = s.answer r ∧ AnswersOnly i s r) ∨ ∃ s', t = s'.answer ⟨.ok, 0⟩ ∧ Writes s i s' := by
  rcases exec_next h with ha | ⟨rfl, ht⟩ | ⟨idx, din, cv, rfl, hl, hcv, ht⟩ | ⟨bytes, hi, hb, ht⟩ | ⟨rfl, ht⟩ |
    ⟨blk, rfl, hb, hblk, ht⟩ | ⟨idx, din, len, rfl, hlen, ht⟩
  · exact .inl ha
  · exact .inr ⟨_, ht, .init⟩
  · exact .inr ⟨_, ht, .setcv hl hcv⟩
  · rcases hi with ⟨b, rfl, rfl⟩ | ⟨din, rfl, rfl⟩
    · exact .inr ⟨_, ht, .putb hb⟩
    · exact .inr ⟨_, ht, .putw hb⟩
  · exact .inr ⟨_, ht, .clrbuf⟩
  · exact .inr ⟨_, ht, .compress hb hblk⟩
  · exact .inr ⟨_, ht, .setlen hlen⟩

/-- The same with the response read off the responses of the run, as 70_reset_and_hazards.md R188 does. -/
theorem exec_next_of_responses {i : Instr} {s t : State} {r : Response} (h : exec i s = .next t)
    (hr : t.responses = s.responses ++ [r]) :
    (t = s.answer r ∧ AnswersOnly i s r) ∨ ∃ s', t = s'.answer r ∧ r = ⟨.ok, 0⟩ ∧ Writes s i s' := by
  rcases exec_next_writes h with ⟨r', rfl, ha⟩ | ⟨s', rfl, hw⟩
  · cases responses_append_inj hr
    exact .inl ⟨rfl, ha⟩
  · rw [State.answer_responses, hw.responses_eq] at hr
    cases responses_append_inj hr
    exact .inr ⟨s', rfl, rfl, hw⟩

/-! ## The answer of each writing command where it writes nothing -/

@[simp] theorem not_answersOnly_init {s : State} {r : Response} : ¬ AnswersOnly .init s r := by
  simp [AnswersOnly, IsRead, Instr.index, Instr.indexMax]

@[simp] theorem not_answersOnly_clrbuf {s : State} {r : Response} : ¬ AnswersOnly .clrbuf s r := by
  simp [AnswersOnly, IsRead, Instr.index, Instr.indexMax]

@[simp] theorem answersOnly_setcv {idx : BitVec 7} {din : Word} {s : State} {r : Response} :
    AnswersOnly (.setcv idx din) s r ↔
      (r = ⟨.illegalCommand, 0⟩ ∧ 3 < idx.toNat) ∨ (r = ⟨.stateLocked, 0⟩ ∧ s.loadable = false) := by
  simp [AnswersOnly, IsRead, Instr.index, Instr.indexMax]

@[simp] theorem answersOnly_putb {b : Byte} {s : State} {r : Response} :
    AnswersOnly (.putb b) s r ↔ r = ⟨.invalidBlockSize, 0⟩ ∧ 64 < s.bcnt.toNat + 1 := by
  simp [AnswersOnly, IsRead, Instr.index, Instr.indexMax]

@[simp] theorem answersOnly_putw {din : Word} {s : State} {r : Response} :
    AnswersOnly (.putw din) s r ↔ r = ⟨.invalidBlockSize, 0⟩ ∧ 64 < s.bcnt.toNat + 4 := by
  simp [AnswersOnly, IsRead, Instr.index, Instr.indexMax]

@[simp] theorem answersOnly_compress {s : State} {r : Response} :
    AnswersOnly .compress s r ↔ r = ⟨.invalidBlockSize, 0⟩ ∧ s.bcnt ≠ 64 := by
  simp [AnswersOnly, IsRead, Instr.index, Instr.indexMax]

/-- PUTB, PUTW and COMPRESS that write nothing are refused for the block's size (60_exceptions.md R161). -/
theorem AnswersOnly.invalidBlockSize_of_block {i : Instr} {s : State} {r : Response} (h : AnswersOnly i s r)
    (hi : (∃ b, i = .putb b) ∨ (∃ din, i = .putw din) ∨ i = .compress) : r.status = .invalidBlockSize := by
  rcases hi with ⟨b, rfl⟩ | ⟨din, rfl⟩ | rfl
  · rw [(answersOnly_putb.1 h).1]
  · rw [(answersOnly_putw.1 h).1]
  · rw [(answersOnly_compress.1 h).1]

/-- So none of the three answers OK without writing. -/
theorem AnswersOnly.not_block_of_ok {i : Instr} {s : State} {r : Response} (h : AnswersOnly i s r)
    (hok : r.status = .ok) : ¬ ((∃ b, i = .putb b) ∨ (∃ din, i = .putw din) ∨ i = .compress) := fun hi => by
  rw [h.invalidBlockSize_of_block hi] at hok
  cases hok

/-! ## The statements of 10_state.md -/

/-- Settles O10: each field of the reset state is the value the spec writes. -/
theorem resetStateHoldsTheGivenValues : Obligations.ResetStateHoldsTheGivenValues :=
  ⟨rfl, rfl, rfl, rfl⟩

/-- Settles O43: where a writer of CV writes nothing it answers an error whose condition is the negation of its clause, and
no other command that writes names CV. -/
theorem chainingStateHasThreeWriters : Obligations.ChainingStateHasThreeWriters := by
  refine ⟨fun _ => rfl, fun i s t r h hr => ?_⟩
  rcases exec_next_of_responses h hr with ⟨rfl, ha⟩ | ⟨s', rfl, rfl, hw⟩
  · refine ⟨?_, ?_, ?_, fun _ => rfl, fun _ _ _ => rfl⟩
    · rintro rfl
      exact absurd ha not_answersOnly_init
    · rintro idx din rfl
      rcases answersOnly_setcv.1 ha with ⟨rfl, hidx⟩ | ⟨rfl, hl⟩
      · simp [Nat.not_le_of_lt hidx]
      · simp [hl]
    · rintro rfl
      obtain ⟨rfl, hb⟩ := answersOnly_compress.1 ha
      simpa using hb
  · cases hw with
    | init => simp [iv]
    | setcv hl hcv =>
      obtain ⟨hidx, hword⟩ := setCvWord?_some hcv
      refine ⟨nofun, ?_, nofun, nofun, fun _ hne => absurd rfl (hne _ _)⟩
      rintro _ _ ⟨⟩
      exact ⟨by simp [hidx, hl], fun _ => hword⟩
    | compress hb hblk =>
      exact ⟨nofun, nofun, fun _ => ⟨by simp [hb], fun _ => ⟨_, Memory.block_eq_some.1 hblk, rfl⟩⟩, nofun,
        fun _ _ hne => absurd rfl hne⟩
    | putb | putw | clrbuf | setlen => simp

/-- Settles O44: the room an append needs bounds the new count, and a refusal for the block's size is the only other answer
of PUTB and PUTW. -/
theorem fillCountChangesAsListed : Obligations.FillCountChangesAsListed := by
  refine ⟨fun _ => rfl, fun i s t r h hr => ?_⟩
  rcases exec_next_of_responses h hr with ⟨rfl, ha⟩ | ⟨s', rfl, rfl, hw⟩
  · refine ⟨fun hok => ?_, fun _ => rfl, fun _ _ _ _ _ => rfl, ?_, id⟩
    · have hblock := ha.not_block_of_ok hok
      refine ⟨?_, fun hb => absurd (.inl hb) hblock, fun hb => absurd (.inr (.inl hb)) hblock⟩
      rintro (rfl | rfl | rfl)
      · exact absurd ha not_answersOnly_init
      · exact absurd ha not_answersOnly_clrbuf
      · exact absurd (.inr (.inr rfl)) hblock
    · rintro n (⟨hb, -⟩ | ⟨hb, -⟩) -
      · exact ha.invalidBlockSize_of_block (.inl hb)
      · exact ha.invalidBlockSize_of_block (.inr (.inl hb))
  · cases hw with
    | @putb b room =>
      have hcount : (s.appended [b]).bcnt.toNat = s.bcnt.toNat + 1 := State.appended_bcnt_toNat room
      refine ⟨fun _ => by simp [hcount], nofun, fun _ _ _ hne _ => absurd rfl (hne b), ?_, fun _ => hcount.trans_le room⟩
      rintro n (⟨-, rfl⟩ | ⟨⟨_, hi⟩, -⟩) hn
      · omega
      · cases hi
    | @putw din room =>
      have hcount : (s.appended (wordLanes din)).bcnt.toNat = s.bcnt.toNat + 4 := State.appended_bcnt_toNat room
      refine ⟨fun _ => by simp [hcount], nofun, fun _ _ _ _ hne => absurd rfl (hne din), ?_, fun _ => hcount.trans_le room⟩
      rintro n (⟨⟨_, hi⟩, -⟩ | ⟨-, rfl⟩) hn
      · cases hi
      · omega
    | init | setcv | clrbuf | compress | setlen => simp

/-- Settles O45: only INIT, an append and COMPRESS write LOADABLE, and none of them answers OK without writing. -/
theorem resumeGateChangesAsListed : Obligations.ResumeGateChangesAsListed := by
  refine ⟨fun _ => rfl, fun i s t r h hr => ?_⟩
  rcases exec_next_of_responses h hr with ⟨rfl, ha⟩ | ⟨s', rfl, rfl, hw⟩
  · refine ⟨?_, fun hok hb => absurd hb (ha.not_block_of_ok hok), fun _ => rfl, fun _ _ _ _ => rfl⟩
    rintro rfl
    exact absurd ha not_answersOnly_init
  · cases hw <;> simp

end Sys2Proof.Machine
end


section
/-! SUPPORT. The settled statement of 20_memory.md. -/

namespace Sys2Proof.Machine

/-- Settles O22: word j is `le32` of its four bytes, and `le32` as a number is their little-endian sum. -/
theorem messageWordsAreLittleEndian : Obligations.MessageWordsAreLittleEndian :=
  fun blk j b0 b1 b2 b3 _ _ h0 h1 h2 h3 =>
    ⟨le32 b0 b1 b2 b3, messageWords_getElem? blk j h0 h1 h2 h3, le32_toNat b0 b1 b2 b3⟩

end Sys2Proof.Machine
end


section
/-! SUPPORT. Which words the decoder refuses, which bits of DIN it reads, what a presented word's step owes to its
decoding, and the settled statements of 30_encoding.md. -/

namespace Sys2Proof

/-! ## The illegal words -/

theorem rsvField_eq_zero_iff (cmd : Word) : rsvField cmd = 0 ↔ cmd.toNat / 2 ^ 15 = 0 := by
  rw [← BitVec.toNat_inj, rsvField_toNat]
  rfl

theorem decode_reservedBits {cmd : Word} (hr : rsvField cmd ≠ 0) (din : Word) :
    decode ⟨cmd, din⟩ = .illegal (.reservedBits (rsvField cmd)) := by
  rw [decode_eq, if_pos hr]

theorem decode_reservedOpcode {cmd : Word} (hr : rsvField cmd = 0) (hf : findRow (opField cmd) = none) (din : Word) :
    decode ⟨cmd, din⟩ = .illegal (.reservedOpcode (opField cmd)) := by
  rw [decode_eq, if_neg (not_not.2 hr), hf]

theorem decode_indexOutOfRange {cmd : Word} {r : OpcodeRow} (hr : rsvField cmd = 0)
    (hf : findRow (opField cmd) = some r) (hi : r.idxMax < (idxField cmd).toNat) (din : Word) :
    decode ⟨cmd, din⟩ = .illegal (.indexOutOfRange (opField cmd) (idxField cmd)) := by
  rw [decode_eq, if_neg (not_not.2 hr), hf]
  exact if_pos hi

/-- A word is illegal exactly if RSV is not 0 or no row of its OP admits its IDX (30_encoding.md R51). -/
theorem decode_illegal_iff (cmd din : Word) : (∃ why, decode ⟨cmd, din⟩ = .illegal why) ↔
    rsvField cmd ≠ 0 ∨ ∀ m ∈ (findRow (opField cmd)).map OpcodeRow.idxMax, m < (idxField cmd).toNat := by
  by_cases hr : rsvField cmd = 0
  · cases hf : findRow (opField cmd) with
    | none => simp [decode_reservedOpcode hr hf]
    | some r =>
      by_cases hi : r.idxMax < (idxField cmd).toNat
      · simp [decode_indexOutOfRange hr hf hi, hi]
      · simp [decode_row hr hf (not_lt.1 hi), hr, hi]
  · simpa [decode_reservedBits hr] using Or.inl hr

/-- Whether a word is illegal, and why, does not depend on DIN (30_encoding.md R49, R52). -/
theorem decode_illegal_of_cmd {cmd din : Word} {why : IllegalReason} (h : decode ⟨cmd, din⟩ = .illegal why)
    (din' : Word) : decode ⟨cmd, din'⟩ = .illegal why := by
  by_cases hr : rsvField cmd = 0
  · cases hf : findRow (opField cmd) with
    | none => rwa [decode_reservedOpcode hr hf] at h ⊢
    | some r =>
      by_cases hi : r.idxMax < (idxField cmd).toNat
      · rwa [decode_indexOutOfRange hr hf hi] at h ⊢
      · rw [decode_row hr hf (not_lt.1 hi)] at h
        cases h
  · rwa [decode_reservedBits hr] at h ⊢

/-- The reserved OPs of 30_encoding.md R52: the gaps between the families of the map. -/
theorem findRow_eq_none_iff : ∀ op < 256, findRow (BitVec.ofNat 8 op) = none ↔
    (0x06 ≤ op ∧ op ≤ 0x0F) ∨ (0x14 ≤ op ∧ op ≤ 0x1F) ∨ (0x24 ≤ op ∧ op ≤ 0x2F) ∨ 0x32 ≤ op := by
  decide +kernel

/-- The IDX values that no row of an OP admits, as 30_encoding.md R52 lists them: all of them for a reserved OP. -/
theorem idxMax_lt_iff {op : Nat} (hop : op < 256) (idx : Nat) :
    (∀ m ∈ (findRow (BitVec.ofNat 8 op)).map OpcodeRow.idxMax, m < idx) ↔
      findRow (BitVec.ofNat 8 op) = none ∨
      (op ∈ [0x00, 0x01, 0x05, 0x10, 0x11, 0x12, 0x13, 0x22] ∧ 0 < idx) ∨
      (op ∈ [0x20, 0x21] ∧ 1 < idx) ∨ (op ∈ [0x02, 0x03] ∧ 3 < idx) ∨
      (op = 0x04 ∧ 15 < idx) ∨ (op = 0x23 ∧ 71 < idx) ∨ (op ∈ [0x30, 0x31] ∧ 63 < idx) := by
  rw [← Option.map_eq_none_iff (f := OpcodeRow.idxMax), findRow_idxMax op hop]
  -- One case per range: its own disjunct gives the bound, and the disjuncts that follow it ask for more.
  split_ifs <;> simp [*] <;> omega

/-! ## The bits of DIN that a command uses -/

/-- DIN as the row of an OP takes it: SETCV, PUTW and SETLEN all of it, PUTB its low byte, every other row nothing
(30_encoding.md R49). -/
def usedDin (op : Nat) (din : Word) : Word :=
  if op ∈ [0x02, 0x11, 0x20] then din
  else if op = 0x10 then BitVec.ofNat 32 (din.toNat % 256)
  else 0

theorem setWidth_lowByte_eq_ofNat (din : Word) :
    (din.extractLsb' 0 8).setWidth 32 = BitVec.ofNat 32 (din.toNat % 256) := by
  apply BitVec.eq_of_toNat_eq
  simp [BitVec.extractLsb'_toNat]

theorem lowByte_ofNat_mod (din : Word) : (BitVec.ofNat 32 (din.toNat % 256)).extractLsb' 0 8 = din.extractLsb' 0 8 := by
  apply BitVec.eq_of_toNat_eq
  simp [BitVec.extractLsb'_toNat]

/-- Row by row: the command built has the row's OP and carries the DIN bits that the row uses. -/
theorem build_opcode_dinWord : ∀ r ∈ opcodeTable, ∀ (idx : BitVec 7) (din : Word),
    (r.build idx din).opcode = r.op ∧ (r.build idx din).dinWord = usedDin r.op.toNat din := by
  simp [opcodeTable, stateRows, blockRows, paddingRows, tableRows, usedDin, Instr.opcode, Instr.dinWord,
    setWidth_lowByte_eq_ofNat]

/-- Row by row: the bits of DIN that the row does not use may be cleared. -/
theorem build_usedDin : ∀ r ∈ opcodeTable, ∀ (idx : BitVec 7) (din : Word),
    r.build idx (usedDin r.op.toNat din) = r.build idx din := by
  simp [opcodeTable, stateRows, blockRows, paddingRows, tableRows, usedDin, lowByte_ofNat_mod]

/-- A decoded command carries the DIN bits that its OP uses. -/
theorem dinWord_of_decode {cmd din : Word} {i : Instr} (h : decode ⟨cmd, din⟩ = .command i) :
    i.dinWord = usedDin i.opcode.toNat din := by
  obtain ⟨-, r, hm, -, -, rfl⟩ := decode_command h
  obtain ⟨hop, hdin⟩ := build_opcode_dinWord r hm (idxField cmd) din
  rw [hdin, hop]

/-- Two DINs that agree on the bits that the OP uses decode to the same. -/
theorem decode_congr_usedDin {cmd din din' : Word}
    (h : usedDin (cmd.toNat % 256) din = usedDin (cmd.toNat % 256) din') :
    decode ⟨cmd, din⟩ = decode ⟨cmd, din'⟩ := by
  simp only [decode_eq]
  cases hf : findRow (opField cmd) with
  | none => rfl
  | some r =>
    obtain ⟨hm, hop⟩ := findRow_some hf
    rw [← opField_toNat, ← hop] at h
    have hbuild : r.build (idxField cmd) din = r.build (idxField cmd) din' := by
      rw [← build_usedDin r hm, h, build_usedDin r hm]
    simp only [hbuild]

end Sys2Proof

namespace Sys2Proof.Machine

/-! ## The step of a presented word -/

/-- A presented word acts on the state that waits behind it. -/
theorem portAction_present (s : State) (c : Command) :
    portAction { s with port := present c :: s.port } = commandAction c s := rfl

/-- An illegal word presented to a core that was reset raises ILLEGAL_COMMAND and does nothing else
(30_encoding.md R52). -/
theorem step_present_illegal {s : State} {c : Command} {why : IllegalReason} (hw : s.wasReset = true)
    (hd : decode c = .illegal why) :
    step { s with port := present c :: s.port } = .next (s.answer ⟨.illegalCommand, 0⟩) := by
  rw [step, portAction_present, commandAction, if_pos hw, hd]
  rfl

/-- A presented word's step depends on the word through its decoding only. -/
theorem step_present_congr {c c' : Command} (h : decode c = decode c') (s : State) :
    step { s with port := present c :: s.port } = step { s with port := present c' :: s.port } := by
  simp only [step, portAction_present, commandAction, h]

/-! ## The statements of 30_encoding.md -/

/-- Settles O3: the decoder's own condition, with the IDX range of each OP read off the map. -/
theorem illegalEncodingsAreExactlyThese : Obligations.IllegalEncodingsAreExactlyThese := by
  intro c op idx
  refine ⟨?_, fun why hd s hw => step_present_illegal hw hd⟩
  have hop : op < 256 := Nat.mod_lt _ (by decide)
  rw [decode_illegal_iff, ne_eq, rsvField_eq_zero_iff, opField_eq_ofNat, idxField_toNat, idxMax_lt_iff hop,
    findRow_eq_none_iff op hop]
  simp only [or_assoc]
  rfl

/-- Settles O4: a decoded command carries the used bits of DIN and is built from no others. -/
theorem ignoredDinBitsChangeNothing : Obligations.IgnoredDinBitsChangeNothing := by
  intro cmd din din'
  refine ⟨fun _ _ h => dinWord_of_decode h, fun _ h => dinWord_of_decode h, fun _ _ h => dinWord_of_decode h,
    fun b h => ?_, fun _ h => decode_illegal_of_cmd h din', fun hused => ?_⟩
  · have hb : b.setWidth 32 = BitVec.ofNat 32 (din.toNat % 256) := dinWord_of_decode h
    simpa [BitVec.setWidth_setWidth_of_le] using congrArg (BitVec.setWidth 8) hb
  · have hd : decode ⟨cmd, din⟩ = decode ⟨cmd, din'⟩ := decode_congr_usedDin <| by
      rcases hused with ⟨hop, hdin⟩ | hop
      · simp [usedDin, hop, hdin]
      · simp_all [usedDin]
    exact ⟨hd, step_present_congr hd⟩

end Sys2Proof.Machine
end

section
/-! SUPPORT. The settled statement of 40_round_function.md about compression, from the rules of Laws/Round.lean. -/

namespace Sys2Proof.Machine

/-- Every message word of a 64-byte block has its four bytes, and is `le32` of them (20_memory.md R31). -/
theorem messageWords_getElem?_of_length {blk : List Byte} (h : blk.length = 64) {j : Nat} (hj : j < 16) :
    ∃ b0 b1 b2 b3, blk[4 * j]? = some b0 ∧ blk[4 * j + 1]? = some b1 ∧ blk[4 * j + 2]? = some b2 ∧
      blk[4 * j + 3]? = some b3 ∧ (messageWords blk)[j]? = some (le32 b0 b1 b2 b3) := by
  have byteAt : ∀ k < 4, ∃ b, blk[4 * j + k]? = some b := fun k hk =>
    ⟨_, List.getElem?_eq_getElem (by omega)⟩
  obtain ⟨b0, h0⟩ := byteAt 0 (by decide)
  obtain ⟨b1, h1⟩ := byteAt 1 (by decide)
  obtain ⟨b2, h2⟩ := byteAt 2 (by decide)
  obtain ⟨b3, h3⟩ := byteAt 3 (by decide)
  exact ⟨b0, b1, b2, b3, h0, h1, h2, h3, messageWords_getElem? blk j h0 h1 h2 h3⟩

/-- Step i turns the working quad with the message word `W[g(i)]` (40_round_function.md R74, R75). -/
theorem quadAfter_succ_of_getElem? {w : List Word} (hw : w.length = 16) (q : Quad) {i : Nat} (hi : i < 64) {m : Word}
    (hm : w[msgIndex i]? = some m) : quadAfter w q (i + 1) = mixStep i m (quadAfter w q i) := by
  obtain ⟨m', hm', hs⟩ := schedule_getElem? hw hi
  obtain rfl : m = m' := Option.some.inj (hm.symm.trans hm')
  exact quadAfter_succ q hs

/-- Compress of a 64-byte block feeds the quad after all 64 steps forward into the incoming state
(40_round_function.md R76). -/
theorem compress_eq_feedForward_quadAfter {blk : List Byte} (h : blk.length = 64) (cv : Quad) :
    compress cv blk = feedForward cv (quadAfter (messageWords blk) cv 64) := by
  rw [compress_eq, mixSteps_eq_quadAfter (messageWords_length h)]

/-- Settles O29: the sequence of working quads is `quadAfter` over the block's message words. -/
theorem compressionIsStepsThenFeedForward : Obligations.CompressionIsStepsThenFeedForward := by
  intro cv blk h
  refine ⟨quadAfter (messageWords blk) cv, quadAfter_zero _ _, fun i hi => ?_, ?_⟩
  · obtain ⟨b0, b1, b2, b3, h0, h1, h2, h3, hm⟩ := messageWords_getElem?_of_length h (msgIndex_lt i hi)
    exact ⟨b0, b1, b2, b3, _, h0, h1, h2, h3, rfl, quadAfter_succ_of_getElem? (messageWords_length h) cv hi hm⟩
  · rw [compress_eq_feedForward_quadAfter h]
    exact ⟨BitVec.toNat_add .., BitVec.toNat_add .., BitVec.toNat_add .., BitVec.toNat_add ..⟩

end Sys2Proof.Machine
end


section
/-! SUPPORT. The length field of the padding, and the settled statement of 41_padding_function.md. -/

namespace Sys2Proof.Machine

/-- The last eight bytes of pad(n) are the length field: 8n in little-endian order (41_padding_function.md R90). -/
theorem pad_getElem?_lengthField (n : Nat) {j : Nat} (hj : j < 8) :
    (pad n)[zeroFill n + 1 + j]? = some (BitVec.ofNat 8 (8 * n / 2 ^ (8 * j))) := by
  rw [pad_cons, show zeroFill n + 1 + j = zeroFill n + j + 1 by omega, List.getElem?_cons_succ,
    List.getElem?_append_right (by simp), List.length_replicate, Nat.add_sub_cancel_left, le64Bytes_getElem? _ j hj]

/-- The low k bytes of a number, weighted little-endian, sum to the number modulo 2^(8k). -/
theorem sum_range_bytes_eq_mod (v k : Nat) :
    ∑ j ∈ Finset.range k, 2 ^ (8 * j) * (BitVec.ofNat 8 (v / 2 ^ (8 * j))).toNat = v % 2 ^ (8 * k) := by
  induction k with
  | zero => simp [Nat.mod_one]
  | succ k ih => rw [Finset.sum_range_succ, ih, BitVec.toNat_ofNat, pow_mul, pow_mul,
      Nat.mod_pow_succ (b := 2 ^ 8) (k := k)]

/-- Settles O36: the field's bytes sum to 8n modulo 2^64, and up to LEN_MAX 8n is below 2^64. -/
theorem lengthFieldHoldsTheBitLength : Obligations.LengthFieldHoldsTheBitLength := by
  intro n hn
  refine ⟨?_, fun j => BitVec.ofNat 8 (8 * n / 2 ^ (8 * j.val)), fun j => pad_getElem?_lengthField n j.isLt, ?_⟩
  · rw [pad_length, padLen_eq]
    omega
  · have noTruncation : 8 * n % 2 ^ (8 * 8) = 8 * n := Nat.mod_eq_of_lt (by omega)
    have fieldSum := sum_range_bytes_eq_mod (8 * n) 8
    rw [noTruncation] at fieldSum
    simpa [Finset.sum_range_succ] using fieldSum.symm

end Sys2Proof.Machine
end


section
/-! SUPPORT. Exactly which words decode to a command, what each state command answers, and the settled statements of
42_state_commands.md. -/

namespace Sys2Proof

/-! ## The words of a command -/

/-- Row by row: the command built carries the IDX that the row admits. -/
theorem build_index : ∀ r ∈ opcodeTable, ∀ (idx : BitVec 7) (din : Word), idx.toNat ≤ r.idxMax →
    (r.build idx din).index = idx ∧ idx.toNat ≤ (r.build idx din).indexMax := by
  have zero : ∀ idx : BitVec 7, idx.toNat = 0 → 0#7 = idx := fun _ h => (BitVec.eq_of_toNat_eq h).symm
  simpa +contextual [opcodeTable, stateRows, blockRows, paddingRows, tableRows, Instr.index, Instr.indexMax] using zero

/-- A decoded command is well-formed, and its encoding has the command word that was decoded (30_encoding.md R51). -/
theorem wellFormed_and_cmd_of_decode {c : Command} {i : Instr} (h : decode c = .command i) :
    i.WellFormed ∧ (encode i).cmd = c.cmd := by
  obtain ⟨hr, r, hm, hop, hi, rfl⟩ := decode_command h
  obtain ⟨hindex, hmax⟩ := build_index r hm (idxField c.cmd) c.din hi
  refine ⟨by rwa [Instr.WellFormed, hindex], ?_⟩
  rw [encode, hindex, (build_opcode_dinWord r hm _ _).1, hop, cmdWord_fields hr]

/-- A well-formed command's own words decode to it (30_encoding.md R51). -/
theorem decode_encode {i : Instr} (hw : i.WellFormed) : decode (encode i) = .command i := by
  obtain ⟨hrsv, hop, hidx, -⟩ := Laws.EncodeFields.of_encode i
  obtain ⟨r, hf, hmax, hbuild⟩ := findRow_opcode i
  refine (decode_row (din := i.dinWord) hrsv (hop ▸ hf) ?_).trans ?_
  · rwa [hidx, hmax]
  · rw [hidx, hbuild]

/-- A command is decoded from exactly its own command word, with any DIN that agrees on the bits it uses
(30_encoding.md R49, R51). -/
theorem decode_eq_command_iff {cmd din : Word} {i : Instr} : decode ⟨cmd, din⟩ = .command i ↔
    i.WellFormed ∧ cmd = (encode i).cmd ∧ usedDin i.opcode.toNat din = i.dinWord := by
  constructor
  · intro h
    obtain ⟨hw, hcmd⟩ := wellFormed_and_cmd_of_decode h
    exact ⟨hw, hcmd.symm, (dinWord_of_decode h).symm⟩
  · rintro ⟨hw, rfl, hdin⟩
    have own := decode_encode hw
    have hop : (encode i).cmd.toNat % 256 = i.opcode.toNat := by rw [← opField_toNat, encode, opField_cmdWord]
    refine Eq.trans (decode_congr_usedDin ?_) own
    rw [hop, hdin]
    exact dinWord_of_decode own

/-- A command that takes nothing from DIN is decoded from exactly its own command word, whatever DIN is. -/
theorem decode_eq_command_iff_cmd {cmd din : Word} {i : Instr} (hw : i.WellFormed)
    (hdin : usedDin i.opcode.toNat din = i.dinWord) : decode ⟨cmd, din⟩ = .command i ↔ cmd = (encode i).cmd := by
  rw [decode_eq_command_iff, and_iff_right hw, and_iff_left hdin]

/-- The command word as a number: OP, plus `idx << 8` (30_encoding.md R50). -/
theorem encode_cmd_toNat (i : Instr) : (encode i).cmd.toNat = i.opcode.toNat + 256 * i.index.toNat :=
  cmdWord_toNat _ _

end Sys2Proof

namespace Sys2Proof.Machine

/-! ## What each state command answers -/

/-- SETCV of an index above 3 is refused before the gate is looked at (60_exceptions.md R170). -/
theorem exec_setcv_illegal {idx : BitVec 7} (h : 3 < idx.toNat) (din : Word) (s : State) :
    exec (.setcv idx din) s = .next (s.answer ⟨.illegalCommand, 0⟩) := by
  rw [exec, execSetcv, setCvWord?_eq_none.2 h, raise_eq]

/-- SETCV of a word that exists is refused while the gate is closed (42_state_commands.md R102). -/
theorem exec_setcv_locked {idx : BitVec 7} {s : State} (h : idx.toNat ≤ 3) (hl : s.loadable = false) (din : Word) :
    exec (.setcv idx din) s = .next (s.answer ⟨.stateLocked, 0⟩) := by
  cases hcv : setCvWord? s.cv din idx.toNat with
  | none => exact absurd h (Nat.not_le_of_lt (setCvWord?_eq_none.1 hcv))
  | some cv => simp [exec, execSetcv, hcv, hl, raise_eq]

/-- SETCV writes the chaining state that `setCvWord?` gives while the gate is open (42_state_commands.md R102). -/
theorem exec_setcv_open {idx : BitVec 7} {din : Word} {s : State} {cv : Quad} (hl : s.loadable = true)
    (hcv : setCvWord? s.cv din idx.toNat = some cv) :
    exec (.setcv idx din) s = .next (State.answer { s with cv := cv } ⟨.ok, 0⟩) := by
  simp [exec, execSetcv, hcv, hl, respond_eq]

theorem exec_getcv_some {idx : BitVec 7} {s : State} {w : Word} (h : cvWord? s.cv idx.toNat = some w) :
    exec (.getcv idx) s = .next (s.answer ⟨.ok, w⟩) := by
  rw [exec, execGetcv, h, respondEntry_some, respond_eq]

theorem exec_getcv_illegal {idx : BitVec 7} (h : 3 < idx.toNat) (s : State) :
    exec (.getcv idx) s = .next (s.answer ⟨.illegalCommand, 0⟩) := by
  rw [exec, execGetcv, cvWord?_eq_none.2 h, respondEntry_none, raise_eq]

/-- Digest byte t is byte t mod 4 of chaining word t div 4 (20_memory.md R33). -/
theorem digestByte?_some {q : Quad} {t : Nat} {w : Word} (h : [q.a, q.b, q.c, q.d][t / 4]? = some w) :
    digestByte? q t = some (byteLane w (t % 4)) := by
  rw [digestByte?, cvWord?_eq_getElem?, h, Option.map_some]

/-- A byte lane zero-extended to a word. -/
theorem setWidth_byteLane (v : Word) (k : Nat) :
    (byteLane v k).setWidth 32 = BitVec.ofNat 32 (v.toNat / 2 ^ (8 * k) % 256) := by
  rw [← byteLane_toNat, ← BitVec.ofNat_toNat]

theorem exec_getdig_some {idx : BitVec 7} {s : State} {b : Byte} (h : digestByte? s.cv idx.toNat = some b) :
    exec (.getdig idx) s = .next (s.answer ⟨.ok, b.setWidth 32⟩) := by
  rw [exec, execGetdig, h, Option.map_some, respondEntry_some, respond_eq]

theorem exec_getdig_illegal {idx : BitVec 7} (h : 15 < idx.toNat) (s : State) :
    exec (.getdig idx) s = .next (s.answer ⟨.illegalCommand, 0⟩) := by
  rw [exec, execGetdig, digestByte?_eq_none.2 h, Option.map_none, respondEntry_none, raise_eq]

/-- LOADABLE's place in STAT, bit 8, as a number (10_state.md R17). -/
theorem loadableBit_toNat (b : Bool) :
    ((BitVec.ofBool b).setWidth 32 <<< 8 : Word).toNat = 2 ^ 8 * (if b then 1 else 0) := by
  cases b <;> rfl

/-- STAT as a sum: the 7 bits of BCNT lie below bit 8, so the two fields do not overlap (10_state.md R17). -/
theorem statView_eq_sum (s : State) :
    statView s = BitVec.ofNat 32 (s.bcnt.toNat + 256 * (if s.loadable then 1 else 0)) := by
  have hcount : s.bcnt.toNat < 2 ^ 8 := by omega
  have noTruncation : s.bcnt.toNat % 2 ^ 32 = s.bcnt.toNat := Nat.mod_eq_of_lt (by omega)
  apply BitVec.eq_of_toNat_eq
  rw [statView, BitVec.toNat_or, BitVec.toNat_setWidth, noTruncation, loadableBit_toNat, Nat.lor_comm,
    ← Nat.two_pow_add_eq_or_of_lt hcount, BitVec.toNat_ofNat]
  split <;> omega

/-! ## The statements of 42_state_commands.md -/

/-- Settles O12: NOP uses no bit of DIN, so its command word alone decides. -/
theorem nopAnswersOkAndChangesNothing : Obligations.NopAnswersOkAndChangesNothing := by
  intro s din
  exact ⟨fun cmd => decode_eq_command_iff_cmd (Nat.le_refl 0) rfl, respond_eq 0 s⟩

/-- Settles O13: the same for INIT, whose effect is the model's with IV written out. -/
theorem initLoadsIvAndOpensTheGate : Obligations.InitLoadsIvAndOpensTheGate := by
  intro s din
  exact ⟨fun cmd => decode_eq_command_iff_cmd (Nat.le_refl 0) rfl, respond_eq 0 _⟩

/-- Settles O14: one clause per outcome of SETCV, and the open gate word by word. -/
theorem setcvOverwritesOneWordOrIsLocked : Obligations.SetcvOverwritesOneWordOrIsLocked := by
  intro s idx din
  refine ⟨encode_cmd_toNat _, fun h => exec_setcv_illegal h din s, fun h hl => exec_setcv_locked h hl din,
    fun hl => ⟨?_, ?_, ?_, ?_⟩⟩ <;>
  · rintro rfl
    exact exec_setcv_open hl rfl

/-- Settles O15: the four words that exist, then the index beyond them. -/
theorem getcvAnswersOneChainingWord : Obligations.GetcvAnswersOneChainingWord := by
  intro s idx
  refine ⟨encode_cmd_toNat _, ?_, ?_, ?_, ?_, fun h => exec_getcv_illegal h s⟩ <;>
  · rintro rfl
    exact exec_getcv_some rfl

/-- Settles O16: GETDIG answers the digest byte of its index, a byte lane of the word. -/
theorem getdigAnswersOneDigestByte : Obligations.GetdigAnswersOneDigestByte := by
  intro s idx
  refine ⟨encode_cmd_toNat _, fun w hw => ?_, fun h => exec_getdig_illegal h s⟩
  rw [exec_getdig_some (digestByte?_some hw), setWidth_byteLane]

/-- Settles O17: RDSTAT answers STAT, whose two fields add up. -/
theorem rdstatAnswersTheStatusView : Obligations.RdstatAnswersTheStatusView := by
  intro s din
  refine ⟨fun cmd => decode_eq_command_iff_cmd (Nat.le_refl 0) rfl, ?_⟩
  rw [exec, execRdstat, respond_eq, statView_eq_sum]

end Sys2Proof.Machine
end


section
/-! SUPPORT. Which words decode to a block command, what each block command answers, and the settled statements of
43_block_commands.md. -/

namespace Sys2Proof.Machine

/-! ## The bytes of DIN -/

/-- The low byte of a word, zero-extended, is a byte zero-extended exactly if it is that byte. -/
theorem ofNat_mod_eq_setWidth_iff (din : Word) (b : Byte) :
    BitVec.ofNat 32 (din.toNat % 256) = b.setWidth 32 ↔ b = BitVec.ofNat 8 (din.toNat % 256) := by
  rw [← BitVec.toNat_inj, ← BitVec.toNat_inj, BitVec.toNat_ofNat, BitVec.toNat_setWidth, BitVec.toNat_ofNat]
  omega

/-- The byte lanes of a word by division; no bit stands above the last lane, so it needs no reduction. -/
theorem wordLanes_eq_ofNat (v : Word) : wordLanes v =
    [BitVec.ofNat 8 (v.toNat % 256), BitVec.ofNat 8 (v.toNat / 2 ^ 8 % 256), BitVec.ofNat 8 (v.toNat / 2 ^ 16 % 256),
      BitVec.ofNat 8 (v.toNat / 2 ^ 24)] := by
  have top : v.toNat / 2 ^ 24 % 256 = v.toNat / 2 ^ 24 := Nat.mod_eq_of_lt (by omega)
  simp only [wordLanes, byteLane_eq_ofNat, Nat.reduceMul, top, pow_zero, Nat.div_one]

/-! ## The words of a block command that uses DIN -/

/-- A well-formed command is decoded from exactly its own command word and the DIN bits it uses
(30_encoding.md R49, R51). -/
theorem decode_eq_command_iff_cmd_din {cmd din : Word} {i : Instr} (hw : i.WellFormed) :
    decode ⟨cmd, din⟩ = .command i ↔ cmd = (encode i).cmd ∧ usedDin i.opcode.toNat din = i.dinWord := by
  rw [decode_eq_command_iff, and_iff_right hw]

theorem decode_eq_putb_iff {cmd din : Word} {b : Byte} :
    decode ⟨cmd, din⟩ = .command (.putb b) ↔ cmd = 0x00000010 ∧ b = BitVec.ofNat 8 (din.toNat % 256) :=
  (decode_eq_command_iff_cmd_din (i := .putb b) (Nat.le_refl 0)).trans
    (and_congr Iff.rfl (ofNat_mod_eq_setWidth_iff din b))

theorem decode_eq_putw_iff {cmd din d : Word} :
    decode ⟨cmd, din⟩ = .command (.putw d) ↔ cmd = 0x00000011 ∧ d = din :=
  (decode_eq_command_iff_cmd_din (i := .putw d) (Nat.le_refl 0)).trans (and_congr Iff.rfl eq_comm)

/-! ## What each block command answers -/

theorem exec_putb_refused {s : State} (h : 64 ≤ s.bcnt.toNat) (b : Byte) :
    exec (.putb b) s = .next (s.answer ⟨.invalidBlockSize, 0⟩) :=
  appendBytes_full (Nat.lt_succ_of_le h)

theorem exec_putb_room {s : State} (h : s.bcnt.toNat < 64) (b : Byte) :
    exec (.putb b) s = .next ((s.appended [b]).answer ⟨.ok, 0⟩) :=
  appendBytes_room h

theorem exec_putw_refused {s : State} (h : 60 < s.bcnt.toNat) (din : Word) :
    exec (.putw din) s = .next (s.answer ⟨.invalidBlockSize, 0⟩) :=
  appendBytes_full (Nat.add_lt_add_right h 4)

theorem exec_putw_room {s : State} (h : s.bcnt.toNat ≤ 60) (din : Word) :
    exec (.putw din) s = .next ((s.appended (wordLanes din)).answer ⟨.ok, 0⟩) :=
  appendBytes_room (Nat.add_le_add_right h 4)

/-- COMPRESS at any count but 64 is refused, before the buffer is looked at (43_block_commands.md R113). -/
theorem exec_compress_refused {s : State} (h : s.bcnt ≠ 64) :
    exec .compress s = .next (s.answer ⟨.invalidBlockSize, 0⟩) := by
  rw [exec, execCompress, if_pos h, raise_eq]

/-- COMPRESS of a full count folds the block that the buffer holds (43_block_commands.md R113). -/
theorem exec_compress_block {s : State} {blk : List Byte} (h : s.bcnt = 64) (hblk : s.buf.block = some blk) :
    exec .compress s = .next (State.answer
      { s with cv := compress s.cv blk, bcnt := 0, loadable := false } ⟨.ok, 0⟩) := by
  rw [exec, execCompress, if_neg (not_not.2 h), hblk]
  exact respond_eq 0 _

/-! ## The statements of 43_block_commands.md -/

/-- Settles O18: one clause per outcome of appending one byte. -/
theorem putbAppendsOneByteOrIsRefused : Obligations.PutbAppendsOneByteOrIsRefused := by
  intro s byte din
  exact ⟨fun cmd b => decode_eq_putb_iff, fun h => exec_putb_refused (by simp [h]) byte,
    fun h => exec_putb_room h byte⟩

/-- Settles O19: one clause per outcome of appending the four byte lanes of DIN. -/
theorem putwAppendsFourBytesOrIsRefused : Obligations.PutwAppendsFourBytesOrIsRefused := by
  intro s din
  refine ⟨fun cmd d => decode_eq_putw_iff, fun h => exec_putw_refused h din, fun h => ?_⟩
  rw [exec_putw_room h, wordLanes_eq_ofNat]
  rfl

/-- Settles O23: CLRBUF uses no bit of DIN, and writes the count alone. -/
theorem clrbufOnlyClearsTheCount : Obligations.ClrbufOnlyClearsTheCount := by
  intro s din
  exact ⟨fun cmd => decode_eq_command_iff_cmd (Nat.le_refl 0) rfl, respond_eq 0 _⟩

/-- Settles O24: the block that COMPRESS reads is the one the buffer holds. -/
theorem compressFoldsTheBlockOrIsRefused : Obligations.CompressFoldsTheBlockOrIsRefused := by
  intro s din
  exact ⟨fun cmd => decode_eq_command_iff_cmd (Nat.le_refl 0) rfl, exec_compress_refused,
    fun blk h holds => exec_compress_block h (Memory.block_eq_some.2 holds)⟩

end Sys2Proof.Machine
end


section
/-! SUPPORT. The halves of LEN as arithmetic, the padding byte position by position, what each padding command answers,
and the settled statements of 44_padding_commands.md. -/

namespace Sys2Proof.Machine

/-! ## The halves of LEN as arithmetic -/

theorem lenHalf?_zero (len : DWord) : lenHalf? len 0 = some (BitVec.ofNat 32 (len.toNat % 2 ^ 32)) := by
  rw [lenHalf?, ← lowHalf_toNat, BitVec.ofNat_toNat, BitVec.setWidth_eq]

theorem lenHalf?_one (len : DWord) : lenHalf? len 1 = some (BitVec.ofNat 32 (len.toNat / 2 ^ 32)) := by
  rw [lenHalf?, ← highHalf_toNat, BitVec.ofNat_toNat, BitVec.setWidth_eq]

/-- Two halves put together, as a 64-bit number. -/
theorem halves_eq_ofNat (hi lo : Word) : (hi ++ lo : DWord) = BitVec.ofNat 64 (2 ^ 32 * hi.toNat + lo.toNat) := by
  rw [← halves_toNat, BitVec.ofNat_toNat, BitVec.setWidth_eq]

theorem setLenHalf?_zero (len : DWord) (v : Word) :
    setLenHalf? len v 0 = some (BitVec.ofNat 64 (2 ^ 32 * (len.toNat / 2 ^ 32) + v.toNat)) := by
  rw [setLenHalf?, halves_eq_ofNat, highHalf_toNat]

theorem setLenHalf?_one (len : DWord) (v : Word) :
    setLenHalf? len v 1 = some (BitVec.ofNat 64 (2 ^ 32 * v.toNat + len.toNat % 2 ^ 32)) := by
  rw [setLenHalf?, halves_eq_ofNat, lowHalf_toNat]

/-! ## The padding byte at each position (41_padding_function.md R93) -/

theorem padLen_le (n : Nat) : padLen n ≤ 72 := by
  have fill := (zeroFill_spec n).1
  rw [padLen_eq]; omega

/-- There is no padding byte from PadLen(n) on. -/
theorem padByte?_eq_none_iff {n k : Nat} : padByte? n k = none ↔ padLen n ≤ k := by
  rw [padByte?]
  split_ifs with beyond <;> simp [beyond]

/-- A position that has a padding byte is an index that PADBYTE's encoding admits. -/
theorem le_71_of_padByte?_some {n k : Nat} {b : Byte} (h : padByte? n k = some b) : k ≤ 71 := by
  have inside : ¬ padLen n ≤ k := fun hk => by simp [padByte?_eq_none_iff.2 hk] at h
  have := padLen_le n
  omega

theorem padByte?_marker (n : Nat) : padByte? n 0 = some 0x80 := by
  rw [padByte?, if_neg (by rw [padLen_eq]; omega), if_pos rfl]

theorem padByte?_zeros {n k : Nat} (h1 : 1 ≤ k) (hz : k ≤ zeroFill n) : padByte? n k = some 0x00 := by
  rw [padByte?, if_neg (by rw [padLen_eq]; omega), if_neg (by omega), if_pos hz]

/-- Byte j of the length field, which stands after the marker and the zeros. -/
theorem padByte?_lengthField (n : Nat) {j : Nat} (hj : j < 8) :
    padByte? n (zeroFill n + 1 + j) = some (BitVec.ofNat 8 (8 * n / 2 ^ (8 * j))) := by
  rw [padByte?, if_neg (by rw [padLen_eq]; omega), if_neg (by omega), if_neg (by omega),
    show zeroFill n + 1 + j - zeroFill n - 1 = j by omega]

/-- A byte given by a number, zero-extended to a word. -/
theorem setWidth_ofNat_byte (v : Nat) : (BitVec.ofNat 8 v).setWidth 32 = BitVec.ofNat 32 (v % 256) := by
  rw [← BitVec.ofNat_toNat, BitVec.toNat_ofNat]

/-! ## What each padding command answers -/

theorem exec_setlen_some {idx : BitVec 7} {din : Word} {s : State} {len : DWord}
    (h : setLenHalf? s.len din idx.toNat = some len) :
    exec (.setlen idx din) s = .next (State.answer { s with len := len } ⟨.ok, 0⟩) := by
  rw [exec, execSetlen, h]
  exact respond_eq 0 _

theorem exec_setlen_illegal {idx : BitVec 7} (h : 1 < idx.toNat) (din : Word) (s : State) :
    exec (.setlen idx din) s = .next (s.answer ⟨.illegalCommand, 0⟩) := by
  rw [exec, execSetlen, setLenHalf?_eq_none.2 h, raise_eq]

theorem exec_getlen_some {idx : BitVec 7} {s : State} {w : Word} (h : lenHalf? s.len idx.toNat = some w) :
    exec (.getlen idx) s = .next (s.answer ⟨.ok, w⟩) := by
  rw [exec, execGetlen, h, respondEntry_some, respond_eq]

theorem exec_getlen_illegal {idx : BitVec 7} (h : 1 < idx.toNat) (s : State) :
    exec (.getlen idx) s = .next (s.answer ⟨.illegalCommand, 0⟩) := by
  rw [exec, execGetlen, lenHalf?_eq_none.2 h, respondEntry_none, raise_eq]

theorem exec_padlen_invalidLength {s : State} (h : lenMax < s.len.toNat) :
    exec .padlen s = .next (s.answer ⟨.invalidLength, 0⟩) := by
  rw [exec, execPadlen, if_pos h, raise_eq]

theorem exec_padlen_ok {s : State} (h : s.len.toNat ≤ lenMax) :
    exec .padlen s = .next (s.answer ⟨.ok, BitVec.ofNat 32 (padLen s.len.toNat)⟩) := by
  rw [exec, execPadlen, if_neg (Nat.not_lt.2 h), respond_eq]

/-- An index above 71 is refused before LEN is looked at (60_exceptions.md R170). -/
theorem exec_padbyte_illegal {idx : BitVec 7} (h : 71 < idx.toNat) (s : State) :
    exec (.padbyte idx) s = .next (s.answer ⟨.illegalCommand, 0⟩) := by
  rw [exec, execPadbyte, if_pos h, raise_eq]

/-- LEN above LEN_MAX is refused before the index is compared with PadLen(LEN) (44_padding_commands.md R123). -/
theorem exec_padbyte_invalidLength {idx : BitVec 7} {s : State} (h : idx.toNat ≤ 71) (hlen : lenMax < s.len.toNat) :
    exec (.padbyte idx) s = .next (s.answer ⟨.invalidLength, 0⟩) := by
  rw [exec, execPadbyte, if_neg (Nat.not_lt.2 h), if_pos hlen, raise_eq]

/-- An index from PadLen(LEN) on is refused alike, whichever of the two index checks meets it. -/
theorem exec_padbyte_beyond {idx : BitVec 7} {s : State} (hlen : s.len.toNat ≤ lenMax)
    (h : padLen s.len.toNat ≤ idx.toNat) :
    exec (.padbyte idx) s = .next (s.answer ⟨.illegalCommand, 0⟩) := by
  rcases Nat.lt_or_ge 71 idx.toNat with h71 | h71
  · exact exec_padbyte_illegal h71 s
  · rw [exec, execPadbyte, if_neg (Nat.not_lt.2 h71), if_neg (Nat.not_lt.2 hlen), padByte?_eq_none_iff.2 h,
      Option.map_none, respondEntry_none, raise_eq]

theorem exec_padbyte_some {idx : BitVec 7} {s : State} {b : Byte} (hlen : s.len.toNat ≤ lenMax)
    (h : padByte? s.len.toNat idx.toNat = some b) :
    exec (.padbyte idx) s = .next (s.answer ⟨.ok, b.setWidth 32⟩) := by
  rw [exec, execPadbyte, if_neg (Nat.not_lt.2 (le_71_of_padByte?_some h)), if_neg (Nat.not_lt.2 hlen), h,
    Option.map_some, respondEntry_some, respond_eq]

/-! ## The statements of 44_padding_commands.md -/

/-- Settles O33: the refusals in their order, then the padding byte of each of the three parts. -/
theorem padbyteAnswersOnePaddingByte : Obligations.PadbyteAnswersOnePaddingByte := by
  intro s idx n z k
  refine ⟨encode_cmd_toNat _, fun h => exec_padbyte_illegal h s, exec_padbyte_invalidLength,
    fun hlen => ⟨exec_padbyte_beyond hlen, fun marker => ?_, fun h1 hz => ?_, fun j hj field => ?_⟩⟩
  · exact exec_padbyte_some hlen (marker ▸ padByte?_marker n)
  · exact exec_padbyte_some hlen (padByte?_zeros h1 hz)
  · rw [exec_padbyte_some hlen (field ▸ padByte?_lengthField n hj), setWidth_ofNat_byte]

/-- Settles O30: the two halves, then the index beyond them. -/
theorem setlenWritesOneHalf : Obligations.SetlenWritesOneHalf := by
  intro s idx din
  refine ⟨encode_cmd_toNat _, ?_, ?_, fun h => exec_setlen_illegal h din s⟩
  · rintro rfl
    exact exec_setlen_some (setLenHalf?_zero s.len din)
  · rintro rfl
    exact exec_setlen_some (setLenHalf?_one s.len din)

/-- Settles O31: the two halves, then the index beyond them. -/
theorem getlenAnswersOneHalf : Obligations.GetlenAnswersOneHalf := by
  intro s idx
  refine ⟨encode_cmd_toNat _, ?_, ?_, fun h => exec_getlen_illegal h s⟩
  · rintro rfl
    exact exec_getlen_some (lenHalf?_zero s.len)
  · rintro rfl
    exact exec_getlen_some (lenHalf?_one s.len)

/-- Settles O32: PADLEN uses no bit of DIN, and PadLen's natural number is the integer expression of the statement. -/
theorem padlenAnswersThePaddingLength : Obligations.PadlenAnswersThePaddingLength := by
  intro s din
  refine ⟨fun cmd => decode_eq_command_iff_cmd (Nat.le_refl 0) rfl, exec_padlen_invalidLength, fun h => ?_⟩
  have padLen_cast : (padLen s.len.toNat : Int) = 9 + (55 - (s.len.toNat : Int)) % 64 := by
    rw [padLen_eq, Nat.cast_add, zeroFill_cast]
    rfl
  rw [exec_padlen_ok h, ← padLen_cast, BitVec.ofInt_natCast]

end Sys2Proof.Machine
end


section
/-! SUPPORT. The rotation table by groups, what each table command answers, and the settled statements of
45_table_commands.md. -/

namespace Sys2Proof.Machine

/-! ## The rotation table by groups -/

/-- The four rotation amounts of each group of sixteen steps, written once (40_round_function.md R71). -/
def rotationGroups : List (List Nat) := [[7, 12, 17, 22], [5, 9, 14, 20], [4, 11, 16, 23], [6, 10, 15, 21]]

/-- The table repeats each group's amounts four times: entry i is amount i mod 4 of group i div 16. -/
theorem rTable_getElem?_eq_group : ∀ i < 64, rTable[i]? = rotationGroups[i / 16]?.bind (·[i % 4]?) := by decide

theorem lt_64_of_rotationGroup {i : Nat} {g : List Nat} (hg : rotationGroups[i / 16]? = some g) : i < 64 := by
  obtain ⟨group, -⟩ := List.getElem?_eq_some_iff.1 hg
  have : i / 16 < 4 := group
  omega

/-- The amount that a step's group gives is the one the step uses. -/
theorem rAmount_eq_of_group {i r : Nat} {g : List Nat} (hg : rotationGroups[i / 16]? = some g)
    (hr : g[i % 4]? = some r) : rAmount i = r := by
  have hi := lt_64_of_rotationGroup hg
  obtain ⟨-, -, entry⟩ := rAmount_spec i hi
  rw [rTable_getElem?_eq_group i hi, hg, Option.bind_some, hr] at entry
  exact (Option.some.inj entry).symm

/-! ## What each table command answers -/

theorem exec_rdk_ok {idx : BitVec 7} (h : idx.toNat < 64) (s : State) :
    exec (.rdk idx) s = .next (s.answer ⟨.ok, kConst idx.toNat⟩) := by
  rw [exec, execRdk, kConst_spec _ h, respondEntry_some, respond_eq]

theorem exec_rdk_illegal {idx : BitVec 7} (h : 63 < idx.toNat) (s : State) :
    exec (.rdk idx) s = .next (s.answer ⟨.illegalCommand, 0⟩) := by
  rw [exec, execRdk, List.getElem?_eq_none (show kTable.length ≤ idx.toNat from h), respondEntry_none, raise_eq]

theorem exec_rdr_ok {idx : BitVec 7} (h : idx.toNat < 64) (s : State) :
    exec (.rdr idx) s = .next (s.answer ⟨.ok, BitVec.ofNat 32 (rAmount idx.toNat)⟩) := by
  obtain ⟨-, -, entry⟩ := rAmount_spec _ h
  rw [exec, execRdr, entry, Option.map_some, respondEntry_some, respond_eq]

theorem exec_rdr_illegal {idx : BitVec 7} (h : 63 < idx.toNat) (s : State) :
    exec (.rdr idx) s = .next (s.answer ⟨.illegalCommand, 0⟩) := by
  rw [exec, execRdr, List.getElem?_eq_none (show rTable.length ≤ idx.toNat from h), Option.map_none,
    respondEntry_none, raise_eq]

/-! ## The statements of 45_table_commands.md -/

/-- Settles O37: the literals written out are the model's own table, so one entry answers both. -/
theorem rdkAnswersOneConstant : Obligations.RdkAnswersOneConstant := by
  intro s idx
  refine ⟨encode_cmd_toNat _, rfl, fun h => exec_rdk_illegal h s, fun h => ?_⟩
  have inside : idx.toNat < 64 := Nat.lt_succ_of_le h
  have entry := kConst_spec _ inside
  exact ⟨kConst idx.toNat, entry, entry, exec_rdk_ok inside s⟩

/-- Settles O38: the amount that the group gives is the table's entry, which bounds it and is what RDR answers. -/
theorem rdrAnswersOneRotationAmount : Obligations.RdrAnswersOneRotationAmount := by
  intro s idx
  refine ⟨encode_cmd_toNat _, fun h => exec_rdr_illegal h s, fun g r hg hr => ?_⟩
  have inside : idx.toNat < 64 := lt_64_of_rotationGroup hg
  obtain rfl := rAmount_eq_of_group hg hr
  obtain ⟨low, high, -⟩ := rAmount_spec _ inside
  exact ⟨low, high, exec_rdr_ok inside s⟩

end Sys2Proof.Machine
end


section
/-! SUPPORT. Which responses a command and a step can give, what an error leaves behind, and the settled statements of
60_exceptions.md. -/

namespace Sys2Proof.Machine

/-! ## The errors of a command -/

/-- A command that answers an error has done nothing else: whatever writes, answers OK (60_exceptions.md R165). -/
theorem exec_error {i : Instr} {s t : State} {r : Response} (h : exec i s = .next t)
    (hr : t.responses = s.responses ++ [r]) (herr : r.status ≠ .ok) : r.dout = 0 ∧ t = s.answer r := by
  rcases exec_next_of_responses h hr with ⟨rfl, ha⟩ | ⟨s', -, rfl, -⟩
  · exact ⟨(answersOnly_status ha).1.resolve_left herr, rfl⟩
  · exact absurd rfl herr

/-- No command answers the status kept for the host (60_exceptions.md R160). -/
theorem exec_status_ne_invalidDigestEncoding {i : Instr} {s t : State} {r : Response} (h : exec i s = .next t)
    (hr : t.responses = s.responses ++ [r]) : r.status ≠ .invalidDigestEncoding := by
  rcases exec_next_of_responses h hr with ⟨-, ha⟩ | ⟨s', -, rfl, -⟩
  · exact (answersOnly_status ha).2
  · exact nofun

/-- The commands that may raise each status (60_exceptions.md R160). -/
theorem AnswersOnly.raisers {i : Instr} {s : State} {r : Response} (h : AnswersOnly i s r) :
    (r.status = .invalidBlockSize → (∃ b, i = .putb b) ∨ (∃ din, i = .putw din) ∨ i = .compress) ∧
    (r.status = .invalidLength → i = .padlen ∨ ∃ idx, i = .padbyte idx) ∧
    (r.status = .illegalCommand → ¬ i.WellFormed ∨ ∃ idx, i = .padbyte idx) ∧
    (r.status = .stateLocked → ∃ idx din, i = .setcv idx din) := by
  rcases h with ⟨-, rfl⟩ | ⟨-, hok⟩ | ⟨rfl, illegal⟩ | ⟨rfl, -, locked⟩ | ⟨rfl, block⟩ | ⟨rfl, -, length⟩
  · exact ⟨nofun, nofun, nofun, nofun⟩
  · simp [hok]
  · exact ⟨nofun, nofun, fun _ => illegal.imp_left Nat.not_le_of_lt, nofun⟩
  · exact ⟨nofun, nofun, nofun, fun _ => locked⟩
  · refine ⟨fun _ => ?_, nofun, nofun, nofun⟩
    exact block.imp (fun ⟨b, hi, _⟩ => ⟨b, hi⟩) (.imp (fun ⟨din, hi, _⟩ => ⟨din, hi⟩) And.left)
  · exact ⟨nofun, fun _ => length, nofun, nofun⟩

/-! ## The responses of a step -/

/-- A presented word that gets a next state is answered as illegal, or its command has run from the state behind it. -/
theorem step_present_next {s t : State} {c : Command} (h : step { s with port := present c :: s.port } = .next t) :
    t = s.answer ⟨.illegalCommand, 0⟩ ∨ ∃ i, decode c = .command i ∧ exec i s = .next t := by
  rw [step, portAction_present, commandAction] at h
  cases hw : s.wasReset with
  | false => simp [hw] at h
  | true =>
    cases hd : decode c with
    | illegal why => exact .inl (by simpa [hw, hd] using h)
    | command i => exact .inr ⟨i, rfl, by simpa [hw, hd] using h⟩

/-- A state with a presented word at its port, taken apart as the word and the state behind it. -/
theorem eq_present_of_port {s : State} {c : Command} {rest : List PortInput} (h : s.port = ⟨false, some c⟩ :: rest) :
    s = { s with port := present c :: rest } := by
  rw [present, ← h]

/-- The one response a step gives, if it gives one: ILLEGAL_COMMAND for an illegal word, or that of the command run; an
idle step and a reset give none (60_exceptions.md R176; 70_reset_and_hazards.md R181). -/
theorem step_response {s t : State} {r : Response} (h : step s = .next t) (hr : t.responses = s.responses ++ [r]) :
    r = ⟨.illegalCommand, 0⟩ ∨ ∃ rest i, exec i { s with port := rest } = .next t := by
  rcases step_next h with ⟨rest, rfl⟩ | ⟨rest, rfl⟩ | ⟨rest, rfl⟩ | hrun
  · simp at hr
  · simp at hr
  · exact .inl (responses_append_inj hr).symm
  · exact .inr hrun

theorem step_status_ne_invalidDigestEncoding {s t : State} {r : Response} (h : step s = .next t)
    (hr : t.responses = s.responses ++ [r]) : r.status ≠ .invalidDigestEncoding := by
  rcases step_response h hr with rfl | ⟨rest, i, hrun⟩
  · exact nofun
  · exact exec_status_ne_invalidDigestEncoding hrun hr

theorem step_error_dout {s t : State} {r : Response} (h : step s = .next t) (hr : t.responses = s.responses ++ [r])
    (herr : r.status ≠ .ok) : r.dout = 0 := by
  rcases step_response h hr with rfl | ⟨rest, i, hrun⟩
  · rfl
  · exact (exec_error hrun hr herr).1

/-! ## The codes -/

theorem Status.code_eq_three_iff {st : Status} : st.code = 3 ↔ st = .invalidDigestEncoding := by
  cases st <;> decide

theorem Status.code_toNat_lt (st : Status) : st.code.toNat < 6 := by
  cases st <;> decide

/-! ## The statements of 60_exceptions.md -/

/-- Settles O39: a command's error is its response alone, and a presented word is answered as illegal or runs as a command
from the state with its transaction taken. -/
theorem errorsChangeNothing : Obligations.ErrorsChangeNothing := by
  refine ⟨fun i s t r => exec_error, fun c rest s t r hport h hr herr => ?_⟩
  rw [eq_present_of_port hport] at h
  rcases step_present_next (s := { s with port := rest }) h with rfl | ⟨i, -, hrun⟩
  · cases responses_append_inj hr
    exact ⟨rfl, rfl⟩
  · exact exec_error hrun hr herr

/-- Settles O41: only a command that writes nothing raises a status, and a step answers what a command or the decoder
raises. -/
theorem statusesAreRaisedAsListed : Obligations.StatusesAreRaisedAsListed := by
  refine ⟨⟨rfl, rfl, rfl, rfl, rfl, rfl⟩, fun i s t r h hr => ?_, fun s t r h hr => ⟨?_, ?_, ?_⟩⟩
  · rcases exec_next_of_responses h hr with ⟨-, ha⟩ | ⟨s', -, rfl, -⟩
    · exact ha.raisers
    · exact ⟨nofun, nofun, nofun, nofun⟩
  · exact mt Status.code_eq_three_iff.1 (step_status_ne_invalidDigestEncoding h hr)
  · exact r.status.code_toNat_lt
  · exact step_error_dout h hr

end Sys2Proof.Machine
end

section
/-! SUPPORT. The step of a command presented before the first reset, and the settled statement of
70_reset_and_hazards.md. -/

namespace Sys2Proof.Machine

/-- A presented word is not decoded on a core that was never reset: the step stops by name
(70_reset_and_hazards.md R182). -/
theorem step_present_neverReset {s : State} (hw : s.wasReset = false) (c : Command) :
    step { s with port := present c :: s.port } = .refused .commandBeforeFirstReset := by
  have hact : portAction { s with port := present c :: s.port } = .neverReset := by
    rw [portAction_present, commandAction, hw, if_neg Bool.false_ne_true]
  rw [step, hact]

/-- Settles O9: the presented word acts on the state behind it, which was never reset either. -/
theorem noCommandBeforeTheFirstReset : Obligations.NoCommandBeforeTheFirstReset := by
  intro s c rest hw hport
  rw [eq_present_of_port hport]
  exact step_present_neverReset (s := { s with port := rest }) hw c

end Sys2Proof.Machine
end


section
/-! SUPPORT. The decoder against the encoder, the step by the transaction at the port, and the settled statements of
30_encoding.md and 70_reset_and_hazards.md about them. -/

namespace Sys2Proof

/-- An ill-formed command's own words are illegal (30_encoding.md R52). -/
theorem decode_encode_illegal {i : Instr} (h : ¬ i.WellFormed) : ∃ why, decode (encode i) = .illegal why := by
  obtain ⟨hrsv, hop, hidx, -⟩ := Laws.EncodeFields.of_encode i
  obtain ⟨r, hf, hmax, -⟩ := findRow_opcode i
  refine ⟨_, decode_indexOutOfRange hrsv (hop ▸ hf) ?_ i.dinWord⟩
  rw [hidx, hmax]
  exact Nat.lt_of_not_le h

end Sys2Proof

namespace Sys2Proof.Machine

/-! ## A step by the transaction that waits -/

theorem step_port_nil {s : State} (h : s.port = []) : step s = .next s := by
  rw [step, portAction, h]

theorem step_port_empty {s : State} {rest : List PortInput} (h : s.port = ⟨false, none⟩ :: rest) :
    step s = .next { s with port := rest } := by
  rw [step, portAction, h]
  rfl

theorem step_port_reset {s : State} {command : Option Command} {rest : List PortInput}
    (h : s.port = ⟨true, command⟩ :: rest) : step s = .next (assertReset { s with port := rest }) := by
  rw [step, portAction, h]
  rfl

/-- A presented word that decodes runs from the state behind it. -/
theorem step_present_command {s : State} {c : Command} {i : Instr} (hw : s.wasReset = true)
    (hd : decode c = .command i) : step { s with port := present c :: s.port } = exec i s := by
  rw [step, portAction_present, commandAction, if_pos hw, hd]

/-! ## A term whose index is above its range -/

/-- Settles O42: each indexed command refuses such an index before its own checks, and no other command can be ill-formed. -/
theorem illFormedCommandsAreIllegalFirst : Obligations.IllFormedCommandsAreIllegalFirst := by
  intro i s h
  cases i with
  | setcv idx din => exact exec_setcv_illegal (Nat.lt_of_not_le h) din s
  | getcv idx => exact exec_getcv_illegal (Nat.lt_of_not_le h) s
  | getdig idx => exact exec_getdig_illegal (Nat.lt_of_not_le h) s
  | setlen idx din => exact exec_setlen_illegal (Nat.lt_of_not_le h) din s
  | getlen idx => exact exec_getlen_illegal (Nat.lt_of_not_le h) s
  | padbyte idx => exact exec_padbyte_illegal (Nat.lt_of_not_le h) s
  | rdk idx => exact exec_rdk_illegal (Nat.lt_of_not_le h) s
  | rdr idx => exact exec_rdr_illegal (Nat.lt_of_not_le h) s
  | nop | init | rdstat | putb | putw | clrbuf | compress | padlen => exact absurd (Nat.le_refl 0) h

/-! ## The statements of 30_encoding.md and 70_reset_and_hazards.md -/

/-- Settles O1: the fields of an encoding select the row that rebuilds the command. -/
theorem decodeOfEncodeIsTheCommand : Obligations.DecodeOfEncodeIsTheCommand := fun _ => decode_encode

/-- Settles O2: the command word is that of the row found, and the DIN bits used are O4's. -/
theorem everyLegalWordHasOneMeaning : Obligations.EveryLegalWordHasOneMeaning := by
  rintro ⟨cmd, din⟩ i h
  obtain ⟨hw, hcmd⟩ := wellFormed_and_cmd_of_decode h
  obtain ⟨hsetcv, hputw, hsetlen, hputb, -⟩ := ignoredDinBitsChangeNothing cmd din din
  refine ⟨hw, hcmd, ?_, ?_, ?_, ?_⟩
  · rintro idx d rfl
    exact hsetcv idx d h
  · rintro idx d rfl
    exact hsetlen idx d h
  · rintro d rfl
    exact hputw d h
  · rintro b rfl
    rw [hputb b h, BitVec.toNat_ofNat]
    exact Nat.mod_mod _ _

/-- Settles O5: six words, each decoded by evaluation. -/
theorem sampleWordsDecodeAsWritten : Obligations.SampleWordsDecodeAsWritten := by
  unfold Obligations.SampleWordsDecodeAsWritten
  decide

/-- Settles O6: the presented word acts on the state behind it. -/
theorem stepRunsTheDecodedCommand : Obligations.StepRunsTheDecodedCommand := by
  intro s c rest i hw hport hd
  rw [eq_present_of_port hport]
  exact step_present_command (s := { s with port := rest }) hw hd

/-- Settles O7: a well-formed term's words decode to it, and an ill-formed term's words are refused as the term is. -/
theorem presentedEncodingRunsAsExec : Obligations.PresentedEncodingRunsAsExec := by
  intro s i hw
  by_cases h : i.WellFormed
  · exact step_present_command hw (decode_encode h)
  · obtain ⟨why, hd⟩ := decode_encode_illegal h
    rw [step_present_illegal hw hd, illFormedCommandsAreIllegalFirst i s h]

/-- Settles O8: the two transactions that present nothing. -/
theorem noCommandNoChange : Obligations.NoCommandNoChange := fun _ =>
  ⟨step_port_nil, fun _ => step_port_empty⟩

/-- Settles O11: the command of a transaction that asserts reset is not looked at. -/
theorem assertedResetOverridesTheCommand : Obligations.AssertedResetOverridesTheCommand :=
  fun _ _ _ hport => ⟨_, step_port_reset hport, rfl, rfl, rfl, rfl, rfl, rfl, rfl⟩

end Sys2Proof.Machine
end


section
/-! SUPPORT. What every command keeps, and the settled statements about all commands and all steps of 10_state.md. -/

namespace Sys2Proof.Machine

/-! ## What a write keeps -/

/-- What a command writes touches neither the reset history nor the port. -/
theorem Writes.samePort {i : Instr} {s s' : State} (h : Writes s i s') : s.SamePort s' := by
  cases h <;> exact ⟨rfl, rfl⟩

theorem State.countInv_appended {s : State} {bytes : List Byte} (room : s.bcnt.toNat + bytes.length ≤ 64) :
    (s.appended bytes).CountInv :=
  ⟨(State.appended_bcnt_toNat room).trans_le room, nofun⟩

/-- The bytes appended are the ones that the raised count newly covers. -/
theorem State.filledInv_appended {s : State} {bytes : List Byte} (room : s.bcnt.toNat + bytes.length ≤ 64)
    (h : s.FilledInv) : (s.appended bytes).FilledInv := by
  intro k hk
  rw [State.appended_bcnt_toNat room] at hk
  rw [State.appended_buf, Memory.read_writeBytes]
  split
  · rw [List.getElem?_eq_getElem (by omega), Option.isSome_some]
  · exact h k (by omega)

theorem State.inv_appended {s : State} {bytes : List Byte} (room : s.bcnt.toNat + bytes.length ≤ 64) (h : s.Inv) :
    (s.appended bytes).Inv := by
  obtain ⟨-, filled, wf⟩ := h
  exact ⟨State.countInv_appended room, State.filledInv_appended room filled, Memory.wf_writeBytes wf room⟩

/-- A count of 0 covers no byte. -/
theorem State.filledInv_of_bcnt_eq_zero {s : State} (h : s.bcnt = 0) : s.FilledInv := by
  intro k hk
  simp [h] at hk

theorem Writes.countInv {i : Instr} {s s' : State} (h : Writes s i s') (hs : s.CountInv) : s'.CountInv := by
  cases h with
  | init | clrbuf | compress => exact ⟨Nat.zero_le _, fun _ => rfl⟩
  | setcv | setlen => exact hs
  | putb room => exact State.countInv_appended (bytes := [_]) room
  | putw room => exact State.countInv_appended (bytes := wordLanes _) room

theorem Writes.inv {i : Instr} {s s' : State} (h : Writes s i s') (hs : s.Inv) : s'.Inv := by
  obtain ⟨count, filled, wf⟩ := hs
  cases h with
  | init => exact ⟨Writes.init.countInv count, State.filledInv_of_bcnt_eq_zero rfl, wf⟩
  | clrbuf => exact ⟨Writes.clrbuf.countInv count, State.filledInv_of_bcnt_eq_zero rfl, wf⟩
  | compress full hblk =>
    exact ⟨(Writes.compress full hblk).countInv count, State.filledInv_of_bcnt_eq_zero rfl, wf⟩
  | setcv | setlen => exact ⟨count, filled, wf⟩
  | putb room => exact State.inv_appended (bytes := [_]) room ⟨count, filled, wf⟩
  | putw room => exact State.inv_appended (bytes := wordLanes _) room ⟨count, filled, wf⟩

theorem exec_inv {i : Instr} {s t : State} (h : exec i s = .next t) (hs : s.Inv) : t.Inv := by
  rcases exec_next_writes h with ⟨r, rfl, -⟩ | ⟨s', rfl, hw⟩
  · exact hs
  · exact hw.inv hs

/-! ## The response of a command without a result -/

theorem AnswersOnly.dout_eq_zero {i : Instr} {s : State} {r : Response} (h : AnswersOnly i s r) (hi : ¬ IsRead i) :
    r.dout = 0 := by
  rcases h with ⟨-, rfl⟩ | ⟨hread, -⟩ | ⟨rfl, -⟩ | ⟨rfl, -⟩ | ⟨rfl, -⟩ | ⟨rfl, -⟩
  · rfl
  · exact absurd hread hi
  all_goals rfl

/-- Settles O40: what a command writes, it writes before its one response; a response with a result is a read's. -/
theorem everyCommandGivesOneResponse : Obligations.EveryCommandGivesOneResponse := by
  intro i s t h
  rcases exec_next_writes h with ⟨r, rfl, ha⟩ | ⟨s', rfl, hw⟩
  · refine ⟨r, rfl, ⟨rfl, rfl⟩, fun hi => ha.dout_eq_zero ?_⟩
    rcases hi with rfl | rfl | ⟨_, _, rfl⟩ | ⟨_, rfl⟩ | ⟨_, rfl⟩ | rfl | rfl | ⟨_, _, rfl⟩ <;> simp [IsRead]
  · exact ⟨⟨.ok, 0⟩, by rw [State.answer_responses, hw.responses_eq], hw.samePort, fun _ => rfl⟩

/-- Settles O46: LEN is a field of SETLEN's write alone, and BUF of an append's. -/
theorem lengthAndBufferWriters : Obligations.LengthAndBufferWriters := by
  intro i s t h
  rcases exec_next_writes h with ⟨r, rfl, -⟩ | ⟨s', rfl, hw⟩
  · exact ⟨fun _ => rfl, fun _ _ _ => rfl⟩
  · cases hw with
    | setlen => exact ⟨fun hne => absurd rfl (hne _ _), fun _ _ _ => rfl⟩
    | putb => exact ⟨fun _ => rfl, fun hne => absurd rfl (hne _)⟩
    | putw => exact ⟨fun _ => rfl, fun _ hne => absurd rfl (hne _)⟩
    | init | setcv | clrbuf | compress => exact ⟨fun _ => rfl, fun _ _ _ => rfl⟩

/-- Settles O48: every write keeps the count within its bounds, and an answer leaves it. -/
theorem commandsKeepTheCountInvariant : Obligations.CommandsKeepTheCountInvariant := by
  intro i s t hs h
  rcases exec_next_writes h with ⟨r, rfl, -⟩ | ⟨s', rfl, hw⟩
  · exact hs
  · exact hw.countInv hs

/-! ## Steps keep the invariant and never stop -/

/-- Any state that reset leaves meets the invariant: its count is 0 and its buffer lists no byte. -/
theorem assertReset_inv (s : State) : (assertReset s).Inv :=
  ⟨⟨Nat.zero_le _, fun _ => rfl⟩, State.filledInv_of_bcnt_eq_zero rfl, .nil, nofun⟩

/-- Settles O49: the reset state is what reset leaves. -/
theorem resetStateMeetsTheInvariant : Obligations.ResetStateMeetsTheInvariant := assertReset_inv State.reset

/-- Settles O50: a step is idle, a reset, an illegal word's answer or a command. -/
theorem everyStepKeepsTheInvariant : Obligations.EveryStepKeepsTheInvariant := by
  intro s t hs h
  rcases step_next h with ⟨rest, rfl⟩ | ⟨rest, rfl⟩ | ⟨rest, rfl⟩ | ⟨rest, i, hrun⟩
  · exact hs
  · exact assertReset_inv _
  · exact hs
  · exact exec_inv hrun hs

theorem step_wasReset {s t : State} (h : step s = .next t) (hw : s.wasReset = true) : t.wasReset = true := by
  rcases step_next h with ⟨rest, rfl⟩ | ⟨rest, rfl⟩ | ⟨rest, rfl⟩ | ⟨rest, i, hrun⟩
  · exact hw
  · rfl
  · exact hw
  · obtain ⟨-, -, ⟨same, -⟩, -⟩ := everyCommandGivesOneResponse i _ t hrun
    exact same.trans hw

/-- Under the invariant COMPRESS finds every byte of a full count written (10_state.md R24), so no command stops. -/
theorem exec_completes_of_inv (i : Instr) {s : State} (hs : s.Inv) : ∃ t, exec i s = .next t := by
  obtain ⟨-, filled, -⟩ := hs
  refine exec_completes i s fun _ full => ?_
  cases hblk : s.buf.block with
  | some blk => exact ⟨blk, rfl⟩
  | none =>
    obtain ⟨k, hk, unwritten⟩ := Memory.block_eq_none.1 hblk
    have written : (s.buf.read k).isSome := filled k (by simpa [full] using hk)
    simp [unwritten] at written

/-- A step of a core that was reset completes, whatever transaction waits. -/
theorem step_completes {s : State} (hs : s.Inv) (hw : s.wasReset = true) : ∃ t, step s = .next t := by
  rcases hport : s.port with _ | ⟨⟨_ | _, _ | c⟩, rest⟩
  · exact ⟨_, step_port_nil hport⟩
  · exact ⟨_, step_port_empty hport⟩
  · rw [eq_present_of_port hport]
    cases hd : decode c with
    | illegal why => exact ⟨_, step_present_illegal (s := { s with port := rest }) hw hd⟩
    | command i =>
      obtain ⟨t, ht⟩ := exec_completes_of_inv i (s := { s with port := rest }) hs
      exact ⟨t, (step_present_command (s := { s with port := rest }) hw hd).trans ht⟩
  · exact ⟨_, step_port_reset hport⟩
  · exact ⟨_, step_port_reset hport⟩

/-- Settles O51: by induction on the number of steps, since each completes and leaves a core that is ready again. -/
theorem readyCoreNeverStops : Obligations.ReadyCoreNeverStops := by
  intro k
  induction k with
  | zero => exact fun s hs hw => ⟨s, rfl, hs, hw⟩
  | succ k ih =>
    intro s hs hw
    obtain ⟨t, ht⟩ := step_completes hs hw
    rw [runSteps_succ k ht]
    exact ih t (everyStepKeepsTheInvariant s t hs ht) (step_wasReset ht hw)

end Sys2Proof.Machine
end


section
/-! SUPPORT. What the response of a read depends on, and the settled statements about repeated reads, the padding
calculator, and the bytes of BUF at or beyond BCNT. -/

namespace Sys2Proof.Machine

/-! ## What a read depends on -/

theorem respondEntry_answers (v : Option Word) : ∃ r, ∀ s : State, respondEntry v s = .next (s.answer r) := by
  cases v with
  | none => exact ⟨_, fun _ => rfl⟩
  | some w => exact ⟨_, fun _ => rfl⟩

/-- A read of the padding calculator answers by LEN alone (44_padding_commands.md). -/
theorem exec_padding_read {i : Instr} (hi : (∃ idx, i = .getlen idx) ∨ i = .padlen ∨ ∃ idx, i = .padbyte idx)
    (len : DWord) : ∃ r, ∀ s : State, s.len = len → exec i s = .next (s.answer r) := by
  rcases hi with ⟨idx, rfl⟩ | rfl | ⟨idx, rfl⟩
  · obtain ⟨r, hr⟩ := respondEntry_answers (lenHalf? len idx.toNat)
    exact ⟨r, fun s hs => by rw [exec, execGetlen, hs, hr]⟩
  · by_cases hlen : lenMax < len.toNat
    · exact ⟨_, fun s hs => exec_padlen_invalidLength (hs ▸ hlen)⟩
    · exact ⟨⟨.ok, BitVec.ofNat 32 (padLen len.toNat)⟩, fun s hs => hs ▸ exec_padlen_ok (Nat.not_lt.1 (hs ▸ hlen))⟩
  · by_cases hidx : 71 < idx.toNat
    · exact ⟨_, fun s _ => exec_padbyte_illegal hidx s⟩
    · by_cases hlen : lenMax < len.toNat
      · exact ⟨_, fun s hs => exec_padbyte_invalidLength (Nat.not_lt.1 hidx) (hs ▸ hlen)⟩
      · obtain ⟨r, hr⟩ := respondEntry_answers ((padByte? len.toNat idx.toNat).map fun b => b.setWidth 32)
        exact ⟨r, fun s hs => by rw [exec, execPadbyte, if_neg hidx, hs, if_neg hlen, hr]⟩

/-- Two states agree on the registers: all of 10_state.md R10 but BUF, which COMPRESS alone reads. -/
abbrev State.SameRegs (s t : State) : Prop :=
  t.cv = s.cv ∧ t.bcnt = s.bcnt ∧ t.loadable = s.loadable ∧ t.len = s.len

/-- A read, or NOP, answers by the registers alone and changes nothing (20_memory.md R39). -/
theorem exec_read {i : Instr} (hi : i = .nop ∨ IsRead i) (s : State) :
    ∃ r, ∀ t : State, s.SameRegs t → exec i t = .next (t.answer r) := by
  rcases hi with rfl | ⟨idx, rfl⟩ | ⟨idx, rfl⟩ | rfl | hlen | hlen | hlen | ⟨idx, rfl⟩ | ⟨idx, rfl⟩
  · exact ⟨_, fun _ _ => rfl⟩
  · obtain ⟨r, hr⟩ := respondEntry_answers (cvWord? s.cv idx.toNat)
    exact ⟨r, fun t ⟨hcv, _⟩ => by rw [exec, execGetcv, hcv, hr]⟩
  · obtain ⟨r, hr⟩ := respondEntry_answers ((digestByte? s.cv idx.toNat).map fun b => b.setWidth 32)
    exact ⟨r, fun t ⟨hcv, _⟩ => by rw [exec, execGetdig, hcv, hr]⟩
  · exact ⟨⟨.ok, statView s⟩, fun t ⟨_, hb, hl, _⟩ => by rw [exec, execRdstat, respond_eq, statView, hb, hl, statView]⟩
  · obtain ⟨r, hr⟩ := exec_padding_read (.inl hlen) s.len
    exact ⟨r, fun t ⟨_, _, _, h⟩ => hr t h⟩
  · obtain ⟨r, hr⟩ := exec_padding_read (.inr (.inl hlen)) s.len
    exact ⟨r, fun t ⟨_, _, _, h⟩ => hr t h⟩
  · obtain ⟨r, hr⟩ := exec_padding_read (.inr (.inr hlen)) s.len
    exact ⟨r, fun t ⟨_, _, _, h⟩ => hr t h⟩
  · obtain ⟨r, hr⟩ := respondEntry_answers kTable[idx.toNat]?
    exact ⟨r, fun t _ => hr t⟩
  · obtain ⟨r, hr⟩ := respondEntry_answers (rTable[idx.toNat]?.map fun r => BitVec.ofNat 32 r)
    exact ⟨r, fun t _ => hr t⟩

/-! ## What SETCV and SETLEN depend on -/

/-- Overwriting a chaining word a second time with the same value changes nothing. -/
theorem setCvWord?_idem {q q' : Quad} {v : Word} {j : Nat} (h : setCvWord? q v j = some q') :
    setCvWord? q' v j = some q' := by
  match j, h with
  | 0, h | 1, h | 2, h | 3, h =>
    cases h
    rfl
  | j + 4, h => cases h

/-- Overwriting a half of LEN a second time with the same value changes nothing. -/
theorem setLenHalf?_idem {len len' : DWord} {v : Word} {j : Nat} (h : setLenHalf? len v j = some len') :
    setLenHalf? len' v j = some len' := by
  match j, h with
  | 0, h =>
    rw [setLenHalf?_zero, Option.some.injEq] at h ⊢
    subst h
    rw [BitVec.toNat_ofNat]
    congr 1
    omega
  | 1, h =>
    rw [setLenHalf?_one, Option.some.injEq] at h ⊢
    subst h
    rw [BitVec.toNat_ofNat]
    congr 1
    omega
  | j + 2, h => cases h

/-- What SETCV does depends on LOADABLE and CV, and on CV no more than on what it makes of CV. -/
theorem exec_setcv_stable (idx : BitVec 7) (din : Word) (s : State) : ∃ cv r, ∀ t : State, t.loadable = s.loadable →
    t.cv = s.cv ∨ t.cv = cv → exec (.setcv idx din) t = .next (State.answer { t with cv := cv } r) := by
  cases hcv : setCvWord? s.cv din idx.toNat with
  | none =>
    refine ⟨s.cv, ⟨.illegalCommand, 0⟩, fun t _ h => ?_⟩
    rw [← or_self_iff.1 h]
    exact exec_setcv_illegal (setCvWord?_eq_none.1 hcv) din t
  | some cv =>
    by_cases gate : s.loadable = true
    · refine ⟨cv, _, fun t ht h => exec_setcv_open (ht.trans gate) ?_⟩
      rcases h with h | h <;> rw [h]
      · exact hcv
      · exact setCvWord?_idem hcv
    · obtain ⟨hidx, -⟩ := setCvWord?_some hcv
      refine ⟨s.cv, ⟨.stateLocked, 0⟩, fun t ht h => ?_⟩
      rw [← or_self_iff.1 h]
      exact exec_setcv_locked hidx (ht.trans (Bool.eq_false_iff.2 gate)) din

/-- What SETLEN does depends on LEN, and no more than on what it makes of LEN. -/
theorem exec_setlen_stable (idx : BitVec 7) (din : Word) (len : DWord) : ∃ len' r, ∀ t : State,
    t.len = len ∨ t.len = len' → exec (.setlen idx din) t = .next (State.answer { t with len := len' } r) := by
  cases hlen : setLenHalf? len din idx.toNat with
  | none =>
    refine ⟨len, ⟨.illegalCommand, 0⟩, fun t h => ?_⟩
    rw [← or_self_iff.1 h]
    exact exec_setlen_illegal (setLenHalf?_eq_none.1 hlen) din t
  | some len' =>
    refine ⟨len', _, fun t h => exec_setlen_some ?_⟩
    rcases h with h | h <;> rw [h]
    · exact hlen
    · exact setLenHalf?_idem hlen

/-- Settles O47: a read answers by the registers, which its own answer leaves alone; a setter makes of what it has written
what it made of the state before. -/
theorem readsAreRepeatableAndSettersIdempotent : Obligations.ReadsAreRepeatableAndSettersIdempotent := by
  intro i s
  constructor
  · intro hi
    obtain ⟨r, hr⟩ := exec_read hi s
    exact ⟨r, hr s ⟨rfl, rfl, rfl, rfl⟩, hr _ ⟨rfl, rfl, rfl, rfl⟩⟩
  · rintro (rfl | ⟨idx, din, rfl⟩ | ⟨idx, din, rfl⟩ | rfl)
    · exact ⟨_, _, rfl, rfl, rfl, rfl, rfl, rfl, rfl⟩
    · obtain ⟨cv, r, hr⟩ := exec_setcv_stable idx din s
      exact ⟨_, _, hr s rfl (.inl rfl), hr _ rfl (.inr rfl), rfl, rfl, rfl, rfl, rfl⟩
    · obtain ⟨len, r, hr⟩ := exec_setlen_stable idx din s.len
      exact ⟨_, _, hr s (.inl rfl), hr _ (.inr rfl), rfl, rfl, rfl, rfl, rfl⟩
    · exact ⟨_, _, rfl, rfl, rfl, rfl, rfl, rfl, rfl⟩

/-- Settles O53: SETLEN writes and answers what LEN gives, and a read answers by LEN and leaves it. -/
theorem paddingCommandsDependOnLengthAlone : Obligations.PaddingCommandsDependOnLengthAlone := by
  intro i s t hst hi
  rcases hi with ⟨idx, din, rfl⟩ | hread
  · obtain ⟨len, r, hr⟩ := exec_setlen_stable idx din s.len
    exact ⟨r, len, hr s (.inl rfl), hr t (.inl hst.symm)⟩
  · obtain ⟨r, hr⟩ := exec_padding_read hread s.len
    refine ⟨r, s.len, hr s rfl, ?_⟩
    rw [hst]
    exact hr t hst.symm

/-! ## Bytes of BUF at or beyond BCNT -/

/-- Nothing lies below a count of 0, so any two buffers agree there. -/
theorem State.agreeBelowCount_of_bcnt_eq_zero {s : State} (h : s.bcnt = 0) (b : Memory) :
    s.AgreeBelowCount { s with buf := b } := by
  refine ⟨rfl, fun k hk => ?_⟩
  simp [h] at hk

/-- Buffers that read alike below a position read alike below the end of a run of bytes written there. -/
theorem Memory.read_writeBytes_congr {m m' : Memory} {k : Nat} (h : ∀ a < k, m.read a = m'.read a) (vs : List Byte) :
    ∀ a < k + vs.length, (m.writeBytes k vs).read a = (m'.writeBytes k vs).read a := by
  intro a ha
  rw [Memory.read_writeBytes, Memory.read_writeBytes]
  split
  · rfl
  · exact h a (by omega)

/-- An append stores the same bytes at the same positions of two buffers that agree below them, or is refused for both. -/
theorem appendBytes_agreeBelowCount {bytes : List Byte} {s s' : State} {b : Memory}
    (h : ∀ k < s.bcnt.toNat, b.read k = s.buf.read k) (hs : appendBytes bytes s = .next s') :
    ∃ t', appendBytes bytes { s with buf := b } = .next t' ∧ s'.AgreeBelowCount t' := by
  rcases appendBytes_next hs with ⟨full, rfl⟩ | ⟨room, rfl⟩
  · exact ⟨_, appendBytes_full (s := { s with buf := b }) full, rfl, h⟩
  · refine ⟨_, appendBytes_room (s := { s with buf := b }) room, rfl, ?_⟩
    rw [State.answer_bcnt, bcnt_append_toNat room]
    exact Memory.read_writeBytes_congr h bytes

/-- A command run from two states that differ only in stale bytes answers alike, and they differ only there again. -/
theorem exec_agreeBelowCount {i : Instr} {s s' : State} {b : Memory}
    (h : ∀ k < s.bcnt.toNat, b.read k = s.buf.read k) (hs : exec i s = .next s') :
    ∃ t', exec i { s with buf := b } = .next t' ∧ s'.AgreeBelowCount t' := by
  have ofRead (hi : i = .nop ∨ IsRead i) : ∃ t', exec i { s with buf := b } = .next t' ∧ s'.AgreeBelowCount t' := by
    obtain ⟨r, hr⟩ := exec_read hi s
    cases hs.symm.trans (hr s ⟨rfl, rfl, rfl, rfl⟩)
    exact ⟨_, hr _ ⟨rfl, rfl, rfl, rfl⟩, rfl, h⟩
  cases i with
  | init =>
    cases hs
    exact ⟨_, rfl, State.agreeBelowCount_of_bcnt_eq_zero rfl b⟩
  | clrbuf =>
    cases hs
    exact ⟨_, rfl, State.agreeBelowCount_of_bcnt_eq_zero rfl b⟩
  | setcv idx din =>
    obtain ⟨cv, r, hr⟩ := exec_setcv_stable idx din s
    cases hs.symm.trans (hr s rfl (.inl rfl))
    exact ⟨_, hr { s with buf := b } rfl (.inl rfl), rfl, h⟩
  | setlen idx din =>
    obtain ⟨len, r, hr⟩ := exec_setlen_stable idx din s.len
    cases hs.symm.trans (hr s (.inl rfl))
    exact ⟨_, hr { s with buf := b } (.inl rfl), rfl, h⟩
  | putb byte => exact appendBytes_agreeBelowCount h hs
  | putw din => exact appendBytes_agreeBelowCount h hs
  | compress =>
    rcases exec_next_writes hs with ⟨r, rfl, ha⟩ | ⟨_, rfl, hw⟩
    · obtain ⟨rfl, partly⟩ := answersOnly_compress.1 ha
      exact ⟨_, exec_compress_refused (s := { s with buf := b }) partly, rfl, h⟩
    · cases hw with
      | compress full hblk =>
        have same : b.block = s.buf.block := Memory.block_congr fun k hk => h k (by rw [full]; exact hk)
        exact ⟨_, exec_compress_block (s := { s with buf := b }) full (same.trans hblk),
          State.agreeBelowCount_of_bcnt_eq_zero rfl b⟩
  | nop | getcv | getdig | rdstat | getlen | padlen | padbyte | rdk | rdr => exact ofRead (by simp [IsRead])

/-- A presented word is refused, answered as illegal or run, whatever the stale bytes are. -/
theorem step_present_agreeBelowCount {s s' : State} {b : Memory} {c : Command}
    (h : ∀ k < s.bcnt.toNat, b.read k = s.buf.read k) (hs : step { s with port := present c :: s.port } = .next s') :
    ∃ t', step { s with buf := b, port := present c :: s.port } = .next t' ∧ s'.AgreeBelowCount t' := by
  by_cases hw : s.wasReset = true
  · cases hd : decode c with
    | illegal why =>
      cases hs.symm.trans (step_present_illegal hw hd)
      exact ⟨_, step_present_illegal (s := { s with buf := b }) hw hd, rfl, h⟩
    | command i =>
      rw [step_present_command hw hd] at hs
      obtain ⟨t', ht', agree⟩ := exec_agreeBelowCount h hs
      exact ⟨t', (step_present_command (s := { s with buf := b }) hw hd).trans ht', agree⟩
  · rw [step_present_neverReset (Bool.eq_false_iff.2 hw)] at hs
    cases hs

/-- Settles O52: the port does not look at BUF, reset lists no byte of it, and a command observes none of the stale bytes. -/
theorem staleBufferBytesAreUnobservable : Obligations.StaleBufferBytesAreUnobservable := by
  rintro s t s' ⟨ht, h⟩ hs
  have samePort : t.port = s.port := by rw [ht]
  rcases hport : s.port with _ | ⟨⟨_ | _, _ | c⟩, rest⟩ <;> rw [hport] at samePort
  · cases hs.symm.trans (step_port_nil hport)
    exact ⟨_, step_port_nil samePort, ht, h⟩
  · cases hs.symm.trans (step_port_empty hport)
    exact ⟨_, step_port_empty samePort, by rw [ht], h⟩
  · rw [eq_present_of_port hport] at hs
    rw [eq_present_of_port samePort, ht]
    exact step_present_agreeBelowCount (s := { s with port := rest }) h hs
  all_goals
    cases hs.symm.trans (step_port_reset hport)
    exact ⟨_, step_port_reset samePort, by rw [ht]; rfl, fun _ _ => rfl⟩

end Sys2Proof.Machine
end



section
/-! SUPPORT. The bytes an append stores, the one stop of COMPRESS, and the settled statements about them of 10_state.md and
20_memory.md. -/

namespace Sys2Proof.Machine

theorem wordLanes_getElem? (v : Word) : ∀ {j : Nat}, j < 4 → (wordLanes v)[j]? = some (byteLane v j)
  | 0, _ | 1, _ | 2, _ | 3, _ => rfl

/-- PUTW stores byte lane j at position BCNT + j (20_memory.md R32). -/
theorem exec_putw_read {s t : State} {din : Word} (room : s.bcnt.toNat ≤ 60) (h : exec (.putw din) s = .next t) {j : Nat}
    (hj : j < 4) : t.buf.read (s.bcnt.toNat + j) = some (byteLane din j) := by
  cases h.symm.trans (exec_putw_room room din)
  exact (Memory.read_writeBytes_at _ _ (vs := wordLanes din) hj).trans (wordLanes_getElem? din hj)

/-- Settles O20: a run of bytes stands at its positions, and every other position reads as before. -/
theorem appendsStoreExactlyTheirBytes : Obligations.AppendsStoreExactlyTheirBytes := by
  intro s t
  refine ⟨fun byte room h => ?_, fun din room h => ⟨fun j hj => ?_, fun k hk => ?_⟩, fun byte full h k => ?_,
    fun din full h k => ?_⟩
  · cases h.symm.trans (exec_putb_room room byte)
    exact ⟨Memory.read_write_same _ _ _, fun k hk => Memory.read_write_other _ _ hk⟩
  · rw [exec_putw_read room h hj, byteLane_eq_ofNat]
  · cases h.symm.trans (exec_putw_room room din)
    exact Memory.read_writeBytes_other _ _ (vs := wordLanes din) hk
  · cases h.symm.trans (exec_putb_refused full byte)
    rfl
  · cases h.symm.trans (exec_putw_refused full din)
    rfl

/-- Settles O21: the block's four bytes at BCNT are the lanes of the word, and `le32` puts them together again. -/
theorem alignedPutwIsReadBackAsItsMessageWord : Obligations.AlignedPutwIsReadBackAsItsMessageWord := by
  rintro s t u din blk aligned room h ⟨-, holds⟩ same
  have position : 4 * (s.bcnt.toNat / 4) = s.bcnt.toNat := by omega
  have lane (j : Nat) (hj : j < 4) : blk[4 * (s.bcnt.toNat / 4) + j]? = some (byteLane din j) := by
    rw [position, ← holds _ (by omega), same j hj, exec_putw_read room h hj]
  rw [messageWords_getElem? blk _ (lane 0 (by decide)) (lane 1 (by decide)) (lane 2 (by decide)) (lane 3 (by decide)),
    le32_lanes]

theorem exec_compress_unwritten {s : State} (full : s.bcnt = 64) (hblk : s.buf.block = none) :
    exec .compress s = .fault .unwrittenBufferByte := by
  rw [exec, execCompress, if_neg (not_not.2 full), hblk]

/-- Settles O25: at any other count COMPRESS is refused, and over a block it completes. -/
theorem compressFaultsExactlyOnAnUnwrittenByte : Obligations.CompressFaultsExactlyOnAnUnwrittenByte := by
  intro s
  rw [← Memory.block_eq_none]
  constructor
  · intro h
    by_cases full : s.bcnt = 64
    · cases hblk : s.buf.block with
      | none => exact ⟨full, rfl⟩
      | some blk => cases h.symm.trans (exec_compress_block full hblk)
    · cases h.symm.trans (exec_compress_refused full)
  · rintro ⟨full, hblk⟩
    exact exec_compress_unwritten full hblk

end Sys2Proof.Machine
end


section
/-! SUPPORT. One step in exact integers, that a step can be undone, and the settled statements of 40_round_function.md. -/

namespace Sys2Proof.Machine

/-- Within a round group every message word has a step (40_round_function.md R74). -/
theorem exists_msgIndex_eq : ∀ r < 4, ∀ j < 16, ∃ k < 16, msgIndex (16 * r + k) = j := by decide +kernel

/-- Within a round group no two steps use the same message word (40_round_function.md R74). -/
theorem msgIndex_group_inj : ∀ r < 4, ∀ k < 16, ∀ k' < 16, msgIndex (16 * r + k) = msgIndex (16 * r + k') → k = k' := by
  decide +kernel

/-- Settles O26: each range of steps takes its own branch, and g is a bijection within each group. -/
theorem roundFunctionAndIndexByStepRange : Obligations.RoundFunctionAndIndexByStepRange := by
  refine ⟨fun i b c d => ⟨fun high => ?_, fun low high => ?_, fun low high => ?_, fun low _ => ?_⟩, fun r hr j hj => ?_⟩
  · have h16 : i < 16 := by omega
    simp [roundFun, roundF, msgIndex, h16]
  · have h16 : ¬ i < 16 := by omega
    have h32 : i < 32 := by omega
    simp [roundFun, roundG, msgIndex, h16, h32]
  · have h16 : ¬ i < 16 := by omega
    have h32 : ¬ i < 32 := by omega
    have h48 : i < 48 := by omega
    simp [roundFun, roundH, msgIndex, h16, h32, h48]
  · have h16 : ¬ i < 16 := by omega
    have h32 : ¬ i < 32 := by omega
    have h48 : ¬ i < 48 := by omega
    simp [roundFun, roundI, msgIndex, h16, h32, h48]
  · obtain ⟨k, hk, index⟩ := exists_msgIndex_eq r hr j hj
    exact ⟨k, ⟨hk, index⟩, fun k' ⟨hk', index'⟩ => msgIndex_group_inj r hr k' hk' k hk (index'.trans index.symm)⟩

/-- The sum of a step wraps once: the three additions modulo 2^32 are one (40_round_function.md R75, R78). -/
theorem stepSum_toNat (i : Nat) (m : Word) (q : Quad) : (stepSum i m q).toNat =
    (q.a.toNat + (roundFun i q.b q.c q.d).toNat + (kConst i).toNat + m.toNat) % 2 ^ 32 := by
  simp only [stepSum, BitVec.toNat_add, Nat.mod_add_mod]

/-- Settles O27: the sum and the rotation as numbers, with the table's entries for K and R. -/
theorem stepInExactIntegers : Obligations.StepInExactIntegers := by
  intro i m q hi
  obtain ⟨low, high, entry⟩ := rAmount_spec i hi
  refine ⟨kConst i, rAmount i, kConst_spec i hi, entry, rfl, rfl, rfl, ?_⟩
  rw [mixStep, BitVec.toNat_add, rotl32_toNat _ (by omega) (by omega), stepSum_toNat]

/-- A step can be undone: b, c and d stand in its result, and the rotation and the sum lose nothing of a. -/
theorem mixStep_inj {i : Nat} (hi : i < 64) {m : Word} {q q' : Quad} (h : mixStep i m q = mixStep i m q') : q = q' := by
  obtain ⟨low, high, -⟩ := rAmount_spec i hi
  obtain ⟨a, b, c, d⟩ := q
  obtain ⟨a', b', c', d'⟩ := q'
  simp only [mixStep, Quad.mk.injEq] at h
  obtain ⟨rfl, hb, rfl, rfl⟩ := h
  have sums := rotl32_inj (by omega) (by omega) ((BitVec.add_right_inj b).1 hb)
  simp only [stepSum, BitVec.add_left_inj] at sums
  rw [sums]

/-- Any sequence of steps below 64 can be undone, the last step first. -/
theorem foldl_mixStep_inj {l : List (Nat × Word)} (hl : ∀ p ∈ l, p.1 < 64) {q q' : Quad}
    (h : l.foldl (fun q p => mixStep p.1 p.2 q) q = l.foldl (fun q p => mixStep p.1 p.2 q) q') : q = q' := by
  induction l generalizing q q' with
  | nil => exact h
  | cons p l ih =>
    obtain ⟨hp, hl⟩ := List.forall_mem_cons.1 hl
    exact mixStep_inj hp (ih hl h)

/-- Settles O28: the 64 steps are a sequence of steps that can each be undone. -/
theorem mixStepsAreInjective : Obligations.MixStepsAreInjective :=
  fun _ _ _ h => foldl_mixStep_inj (fun _ => schedule_step_lt) h

end Sys2Proof.Machine
end


section
/-! SUPPORT. The padding's length and its bytes in order: the settled statements of 41_padding_function.md. -/

namespace Sys2Proof.Machine

/-- Settles O34: linear arithmetic from the range of Z(n) and what it brings n + 1 to. -/
theorem paddedLengthIsWholeBlocks : Obligations.PaddedLengthIsWholeBlocks := by
  intro n
  obtain ⟨small, fill⟩ := zeroFill_spec n
  rw [padLen_eq]
  omega

/-- The zeros of pad(n) stand after the marker (41_padding_function.md R90). -/
theorem pad_getElem?_zeros {n k : Nat} (h1 : 1 ≤ k) (hz : k ≤ zeroFill n) : (pad n)[k]? = some 0x00 := by
  obtain ⟨k, rfl⟩ := Nat.exists_eq_add_of_le' h1
  rw [pad_cons, List.getElem?_cons_succ, List.getElem?_append_left (by simpa using hz),
    List.getElem?_replicate_of_lt hz]

/-- Settles O35: the marker, the zeros, the length field and the end, as PadByte has them. -/
theorem padBytesInOrderAreThePadding : Obligations.PadBytesInOrderAreThePadding := by
  intro n
  obtain ⟨small, fill⟩ := zeroFill_spec n
  refine ⟨pad_length n, fun z hz => by rw [padLen_eq]; omega, fun k => ?_⟩
  rcases Nat.lt_or_ge k (padLen n) with inside | beyond
  · rw [padLen_eq] at inside
    rcases Nat.eq_zero_or_pos k with rfl | h1
    · rw [padByte?_marker, pad_cons, List.getElem?_cons_zero]
    · rcases Nat.lt_or_ge (zeroFill n) k with field | zeros
      · obtain ⟨j, rfl⟩ := Nat.exists_eq_add_of_le field
        rw [padByte?_lengthField n (by omega), pad_getElem?_lengthField n (by omega)]
      · rw [padByte?_zeros h1 zeros, pad_getElem?_zeros h1 zeros]
  · rw [padByte?_eq_none_iff.2 beyond, List.getElem?_eq_none (by rwa [pad_length])]

end Sys2Proof.Machine
end


section
/-! SUPPORT. One core's step in a system of several: the settled statement of 60_exceptions.md R174. -/

namespace Sys2Proof.Machine

/-- Everything a system's step that completes can do: the chosen core's own step, put in that core's place. -/
theorem System.stepAt_next {n : Nat} {sys sys' : System n} {k : Fin n} (h : sys.stepAt k = .next sys') :
    ∃ t, step sys[k] = .next t ∧ sys' = sys.set k t := by
  rw [System.stepAt] at h
  split at h
  · exact ⟨_, ‹_›, (Host.Outcome.next.inj h).symm⟩
  · cases h
  · cases h

/-- Settles O55: one place of the vector is set. -/
theorem instancesShareNoState : Obligations.InstancesShareNoState := by
  intro n sys sys' k h
  obtain ⟨t, ht, rfl⟩ := System.stepAt_next h
  refine ⟨?_, fun j hj => ?_⟩
  · rw [ht, Fin.getElem_fin, Vector.getElem_set_self]
  · exact Vector.getElem_set_ne k.isLt j.isLt (Fin.val_ne_of_ne hj.symm)

end Sys2Proof.Machine
end



section
/-! SUPPORT. Commands issued one after another through the port, and the settled statement of 30_encoding.md R55. -/

namespace Sys2Proof.Machine

/-! ## Issued commands -/

/-- `RunsTo s i v s'`: in state `s`, whatever still waits at the port, the command `i` writes `s'` and answers (OK, v). -/
def RunsTo (s : State) (i : Instr) (v : Word) (s' : State) : Prop :=
  s'.responses = s.responses ∧ ∀ p, exec i { s with port := p } = .next (State.answer { s' with port := p } ⟨.ok, v⟩)

theorem runsTo_init (s : State) : RunsTo s .init 0 { s with cv := iv, bcnt := 0, loadable := true } :=
  ⟨rfl, fun _ => rfl⟩

theorem runsTo_setcv {s : State} {idx : BitVec 7} {din : Word} {cv : Quad} (gate : s.loadable = true)
    (hcv : setCvWord? s.cv din idx.toNat = some cv) : RunsTo s (.setcv idx din) 0 { s with cv := cv } :=
  ⟨rfl, fun _ => exec_setcv_open gate hcv⟩

theorem runsTo_putb {s : State} (room : s.bcnt.toNat < 64) (b : Byte) : RunsTo s (.putb b) 0 (s.appended [b]) :=
  ⟨rfl, fun p => exec_putb_room (s := { s with port := p }) room b⟩

theorem runsTo_compress {s : State} {blk : List Byte} (full : s.bcnt = 64) (hblk : s.buf.block = some blk) :
    RunsTo s .compress 0 { s with cv := compress s.cv blk, bcnt := 0, loadable := false } :=
  ⟨rfl, fun _ => exec_compress_block full hblk⟩

theorem runsTo_setlen {s : State} {idx : BitVec 7} {din : Word} {len : DWord}
    (hlen : setLenHalf? s.len din idx.toNat = some len) : RunsTo s (.setlen idx din) 0 { s with len := len } :=
  ⟨rfl, fun _ => exec_setlen_some hlen⟩

theorem runsTo_padlen {s : State} (h : s.len.toNat ≤ lenMax) :
    RunsTo s .padlen (BitVec.ofNat 32 (padLen s.len.toNat)) s :=
  ⟨rfl, fun p => exec_padlen_ok (s := { s with port := p }) h⟩

/-- `Issued s is vs t`: given to a core in state `s` one after another, the commands `is` all answer OK, with the values
`vs`, and leave `t`. -/
inductive Issued : State → List Instr → List Word → State → Prop where
  | nil (s : State) : Issued s [] [] s
  | cons {s s' t : State} {i : Instr} {v : Word} {is : List Instr} {vs : List Word} (head : RunsTo s i v s')
      (tail : Issued (s'.answer ⟨.ok, v⟩) is vs t) : Issued s (i :: is) (v :: vs) t

theorem Issued.append {s t u : State} {is js : List Instr} {vs ws : List Word} (h : Issued s is vs t)
    (h' : Issued t js ws u) : Issued s (is ++ js) (vs ++ ws) u := by
  induction h with
  | nil => exact h'
  | cons head _ ih => exact .cons head (ih h')

theorem Issued.responses_eq {s t : State} {is : List Instr} {vs : List Word} (h : Issued s is vs t) :
    t.responses = s.responses ++ vs.map (⟨.ok, ·⟩) := by
  induction h with
  | nil => rw [List.map_nil, List.append_nil]
  | cons head _ ih => rw [ih, State.answer_responses, head.1, List.append_assoc, List.singleton_append, List.map_cons]

/-- Presented through the port of a core that was reset, the commands run to their end, one step each. -/
theorem Issued.runSteps_eq {s t : State} {is : List Instr} {vs : List Word} (h : Issued s is vs t)
    (hw : s.wasReset = true) : runSteps is.length { s with port := issue is } = .next { t with port := [] } := by
  induction h with
  | nil => rfl
  | @cons s s' t i v is vs head _ ih =>
    have run := head.2 (issue is)
    obtain ⟨-, -, ⟨same, -⟩, -⟩ := everyCommandGivesOneResponse _ _ _ run
    have first : step { s with port := issue (i :: is) } = .next { s'.answer ⟨.ok, v⟩ with port := issue is } :=
      (presentedEncodingRunsAsExec { s with port := issue is } i hw).trans run
    exact (runSteps_succ is.length first).trans (ih (same.trans hw))

/-- Reads issued one after another answer one by one and change nothing but the responses. -/
theorem issued_reads {α : Type} {f : α → Instr} {g : α → Word} {l : List α} {s : State}
    (h : ∀ x ∈ l, ∀ t : State, t.cv = s.cv → t.len = s.len → exec (f x) t = .next (t.answer ⟨.ok, g x⟩)) :
    ∃ rs, Issued s (l.map f) (l.map g) { s with responses := rs } := by
  induction l generalizing s with
  | nil => exact ⟨s.responses, .nil s⟩
  | cons x l ih =>
    obtain ⟨hx, hl⟩ := List.forall_mem_cons.1 h
    obtain ⟨rs, rest⟩ := ih (s := s.answer ⟨.ok, g x⟩) hl
    exact ⟨rs, .cons ⟨rfl, fun p => hx { s with port := p } rfl rfl⟩ rest⟩

/-- RESUME opens the gate by INIT and then writes the four words (30_encoding.md R55). -/
theorem issued_resume (s : State) (q : Quad) : ∃ rs, Issued s (resume q) [0, 0, 0, 0, 0]
    { s with cv := q, bcnt := 0, loadable := true, responses := rs } :=
  ⟨_, .cons (runsTo_init s) <| .cons (runsTo_setcv rfl rfl) <| .cons (runsTo_setcv rfl rfl) <|
    .cons (runsTo_setcv rfl rfl) <| .cons (runsTo_setcv rfl rfl) <| .nil _⟩

/-- Settles O54: RESUME's five commands, run through the port. -/
theorem resumeSetsAnyChainingState : Obligations.ResumeSetsAnyChainingState := by
  intro s q hw
  obtain ⟨rs, h⟩ := issued_resume s q
  exact ⟨_, h.runSteps_eq hw, rfl, rfl, rfl, rfl, rfl, rfl, h.responses_eq⟩

end Sys2Proof.Machine
end


section
/-! SUPPORT. Digests and their text, the hashing and length-extension procedures command by command, and the settled
statements of 48_host_procedures.md. -/

namespace Sys2Proof.Machine

/-! ## Digests and digest text -/

theorem foldBlocks_append {a b : List Byte} (h : a.length % 64 = 0) (cv : Quad) :
    foldBlocks cv (a ++ b) = foldBlocks (foldBlocks cv a) b := by
  rw [foldBlocks, blocksOf_append h, List.foldl_append, foldBlocks, foldBlocks]

/-- A padded message is whole blocks (41_padding_function.md R95). -/
theorem padded_length_mod (m : List Byte) : (m ++ pad m.length).length % 64 = 0 := by
  obtain ⟨whole, -⟩ := paddedLengthIsWholeBlocks m.length
  rw [List.length_append, pad_length, whole]

theorem append_forged_length (S suffix : List Byte) :
    (S ++ forged S.length suffix).length = forgedLen S.length suffix := by
  rw [forged, forgedLen, List.length_append, List.length_append, pad_length, Nat.add_assoc]

/-- Settles O56: the padded S is whole blocks, so folding them first and the attack's blocks then folds the forged message
with its own padding. -/
theorem extensionPropertyOfMd5 : Obligations.ExtensionPropertyOfMd5 := by
  intro S suffix
  have blocks : S ++ pad S.length ++ attackBlocks S.length suffix =
      S ++ forged S.length suffix ++ pad (S ++ forged S.length suffix).length := by
    rw [append_forged_length, attackBlocks, forged]
    simp only [List.append_assoc]
  rw [md5, md5, ← foldBlocks_append (padded_length_mod S), blocks]

theorem textBytes?_flatMap_byteText (bs : List Byte) : textBytes? (bs.flatMap byteText) = some bs := by
  induction bs with
  | nil => rfl
  | cons b bs ih => rw [List.flatMap_cons, textBytes?_byteText, ih, Option.map_some]

/-- The message words of the digest bytes are the chaining words (20_memory.md R31, R33). -/
theorem messageWords_digestBytes (q : Quad) : messageWords (digestBytes q) = [q.a, q.b, q.c, q.d] := by
  simp only [digestBytes, List.flatMap_cons, List.flatMap_nil, wordLanes, List.cons_append, List.nil_append,
    messageWords, le32_lanes]

/-- Settles O57: the text is two digits for each byte, and bytes and words are read back as they were written. -/
theorem digestTextRoundTrip : Obligations.DigestTextRoundTrip := by
  intro q
  have length : (digestText q).length = 32 := rfl
  refine ⟨length, ?_⟩
  rw [digestWords, if_neg (not_not.2 length), digestText, textBytes?_flatMap_byteText, Option.map_some,
    messageWords_digestBytes]

/-! ## Pushing and compressing blocks -/

/-- Bytes pushed into the room that is left stand in the buffer from BCNT upwards. -/
theorem issued_putb {bytes : List Byte} {s : State} (room : s.bcnt.toNat + bytes.length ≤ 64) :
    ∃ vs t, Issued s (bytes.map Instr.putb) vs t ∧ t.cv = s.cv ∧ t.bcnt.toNat = s.bcnt.toNat + bytes.length ∧
      t.buf = s.buf.writeBytes s.bcnt.toNat bytes := by
  induction bytes generalizing s with
  | nil => exact ⟨_, s, .nil s, rfl, rfl, rfl⟩
  | cons b bytes ih =>
    rw [List.length_cons] at room ⊢
    have count : (s.appended [b]).bcnt.toNat = s.bcnt.toNat + 1 :=
      State.appended_bcnt_toNat (Nat.le_trans (by simp) room)
    obtain ⟨vs, t, rest, hcv, hb, hbuf⟩ := ih (s := (s.appended [b]).answer ⟨.ok, 0⟩) (by
      rw [State.answer_bcnt, count]; omega)
    rw [State.answer_bcnt, count] at hb hbuf
    exact ⟨_, t, .cons (runsTo_putb (by omega) b) rest, hcv, by omega, hbuf⟩

/-- A block pushed from an empty count and compressed is folded into CV (48_host_procedures.md R140). -/
theorem issued_blockCommands {b : List Byte} {s : State} (hb : b.length = 64) (empty : s.bcnt = 0) :
    ∃ vs t, Issued s (blockCommands b) vs t ∧ t.cv = compress s.cv b ∧ t.bcnt = 0 := by
  have zero : s.bcnt.toNat = 0 := by rw [empty]; rfl
  obtain ⟨vs, t, pushed, hcv, count, hbuf⟩ := issued_putb (bytes := b) (s := s) (by omega)
  have full : t.bcnt = 64 := BitVec.eq_of_toNat_eq (by rw [count, zero, hb]; rfl)
  have hblk : t.buf.block = some b := Memory.block_eq_some.2 ⟨hb, fun k hk => by
    rw [hbuf, zero, ← Memory.read_writeBytes_at s.buf 0 (vs := b) (by omega), Nat.zero_add]⟩
  exact ⟨_, _, pushed.append (.cons (runsTo_compress full hblk) (.nil _)), congrArg (compress · b) hcv, rfl⟩

/-- Blocks of 64 bytes, one after another, fold into CV. -/
theorem issued_blocks {bs : List (List Byte)} {s : State} (hbs : ∀ b ∈ bs, b.length = 64) (empty : s.bcnt = 0) :
    ∃ vs t, Issued s (bs.flatMap blockCommands) vs t ∧ t.cv = bs.foldl compress s.cv := by
  induction bs generalizing s with
  | nil => exact ⟨_, s, .nil s, rfl⟩
  | cons b bs ih =>
    obtain ⟨hb, hbs⟩ := List.forall_mem_cons.1 hbs
    obtain ⟨vs, t, first, hcv, empty'⟩ := issued_blockCommands hb empty
    obtain ⟨ws, u, rest, hcv'⟩ := ih hbs empty'
    exact ⟨_, u, first.append rest, by rw [hcv', hcv, List.foldl_cons]⟩

theorem issued_foldCommands {s : State} (empty : s.bcnt = 0) (p : List Byte) :
    ∃ vs t, Issued s (foldCommands p) vs t ∧ t.cv = foldBlocks s.cv p :=
  issued_blocks (fun _ => length_of_mem_blocksOf) empty

/-! ## Reading the digest -/

/-- An index below 128 is the number it is written from. -/
theorem ofNat_index_toNat {k : Nat} (h : k < 128) : (BitVec.ofNat 7 k).toNat = k := by
  rw [BitVec.toNat_ofNat, Nat.mod_eq_of_lt h]

theorem digestByte?_eq_digestBytes (q : Quad) {t : Nat} (h : t < 16) :
    digestByte? q t = some ((digestBytes q).getD t 0) := by
  interval_cases t <;> rfl

/-- READDIG answers the sixteen digest bytes in order (30_encoding.md R55). -/
theorem issued_readdig (s : State) : ∃ rs, Issued s readdig ((digestBytes s.cv).map (·.setWidth 32))
    { s with responses := rs } :=
  issued_reads (g := fun t => ((digestBytes s.cv).getD t 0).setWidth 32) fun t ht u hcv _ => by
    have index : t < 16 := List.mem_range.1 ht
    refine exec_getdig_some ?_
    rw [ofNat_index_toNat (by omega), hcv, digestByte?_eq_digestBytes _ index]

/-- Commands that all answer OK, then READDIG: run through the port, they leave CV and answer its bytes last. -/
theorem runSteps_readdig {s t : State} {is : List Instr} {vs : List Word} (h : Issued s is vs t)
    (hw : s.wasReset = true) : ∃ u : State,
    runSteps (is ++ readdig).length { s with port := issue (is ++ readdig) } = .next u ∧ u.cv = t.cv ∧ u.port = [] ∧
      ∃ before : List Response, (∀ r ∈ before, r.status = .ok) ∧
        u.responses = s.responses ++ before ++ (digestBytes t.cv).map fun b => ⟨.ok, b.setWidth 32⟩ := by
  obtain ⟨rs, read⟩ := issued_readdig t
  have all := h.append read
  refine ⟨_, all.runSteps_eq hw, rfl, rfl, vs.map (⟨.ok, ·⟩), by simp, ?_⟩
  rw [List.append_assoc]
  exact all.responses_eq.trans (by rw [List.map_append, List.map_map]; rfl)

/-- Settles O58: INIT loads IV and empties the count, the blocks fold into CV, and the digest is read. -/
theorem hashingProcedureLeavesTheDigest : Obligations.HashingProcedureLeavesTheDigest := by
  intro s m hw _
  obtain ⟨vs, t, fold, hcv⟩ := issued_foldCommands
    (s := State.answer { s with cv := iv, bcnt := 0, loadable := true } ⟨.ok, 0⟩) rfl (m ++ pad m.length)
  have digest : t.cv = md5 m := hcv
  rw [← digest]
  exact runSteps_readdig (.cons (runsTo_init s) fold) hw

/-! ## Length extension -/

/-- Over the low half of v, the high half of v makes up v (44_padding_commands.md R120). -/
theorem setLenHalf?_highHalf {len v : DWord} (low : len.toNat % 2 ^ 32 = v.toNat % 2 ^ 32) :
    setLenHalf? len (v.extractLsb' 32 32) 1 = some v := by
  rw [setLenHalf?_one, highHalf_toNat, low, Nat.div_add_mod, BitVec.ofNat_toNat, BitVec.setWidth_eq]

/-- SETLEN64 v writes the two halves of v, which make up v whatever LEN held (30_encoding.md R55). -/
theorem issued_setlen64 (s : State) (v : DWord) :
    ∃ rs, Issued s (setlen64 v) [0, 0] { s with len := v, responses := rs } := by
  refine ⟨_, .cons (runsTo_setlen (setLenHalf?_zero s.len _)) <| .cons (runsTo_setlen (setLenHalf?_highHalf ?_)) <|
    .nil _⟩
  rw [State.answer_len, BitVec.toNat_ofNat, lowHalf_toNat]
  omega

/-- PADBYTE 0 to PADLEN − 1 answer the padding of LEN byte by byte. -/
theorem issued_padbytes {s : State} {n : Nat} (hn : s.len.toNat = n) (h : n ≤ lenMax) :
    ∃ rs, Issued s ((List.range (padLen n)).map fun k => .padbyte (BitVec.ofNat 7 k))
      ((List.range (padLen n)).map fun k => ((padByte? n k).getD 0).setWidth 32) { s with responses := rs } :=
  issued_reads fun k hk t _ hlen => by
    have inside : k < padLen n := List.mem_range.1 hk
    have index : (BitVec.ofNat 7 k).toNat = k := ofNat_index_toNat (by have := padLen_le n; omega)
    have count : t.len.toNat = n := by rw [hlen, hn]
    cases hb : padByte? n k with
    | none => exact absurd (padByte?_eq_none_iff.1 hb) (Nat.not_le_of_lt inside)
    | some b => exact exec_padbyte_some (count.trans_le h) (by rw [count, index, hb, Option.getD_some])

/-- Reading the padding of n from the core leaves CV and BCNT (48_host_procedures.md R144). -/
theorem issued_padCommands (s : State) {n : Nat} (h : n ≤ lenMax) :
    ∃ vs t, Issued s (padCommands n) vs t ∧ t.cv = s.cv ∧ t.bcnt = s.bcnt := by
  have number : (BitVec.ofNat 64 n).toNat = n := by
    rw [BitVec.toNat_ofNat, Nat.mod_eq_of_lt]
    rw [lenMax] at h
    omega
  obtain ⟨rs, set⟩ := issued_setlen64 s (BitVec.ofNat 64 n)
  have length := runsTo_padlen (s := { s with len := BitVec.ofNat 64 n, responses := rs }) (number.trans_le h)
  obtain ⟨_, bytes⟩ := issued_padbytes (s := State.answer { s with len := BitVec.ofNat 64 n, responses := rs }
    ⟨.ok, BitVec.ofNat 32 (padLen (BitVec.ofNat 64 n).toNat)⟩) number h
  exact ⟨_, _, (set.append (.cons length (.nil _))).append bytes, rfl, rfl⟩

/-- The attack's commands but the last sixteen: both paddings are read, the known digest is loaded, and the attack's blocks
fold into it (48_host_procedures.md R144). -/
theorem issued_attack (s : State) {knownLen : Nat} {suffix : List Byte} (known : Quad)
    (h : forgedLen knownLen suffix ≤ lenMax) : ∃ vs t,
    Issued s (padCommands knownLen ++ resume known ++ padCommands (forgedLen knownLen suffix) ++
      foldCommands (attackBlocks knownLen suffix)) vs t ∧ t.cv = foldBlocks known (attackBlocks knownLen suffix) := by
  obtain ⟨_, s₁, readPad, -, -⟩ := issued_padCommands s (n := knownLen) (by rw [forgedLen] at h; omega)
  obtain ⟨rs, load⟩ := issued_resume s₁ known
  obtain ⟨_, s₂, readNewPad, loaded, empty⟩ := issued_padCommands
    { s₁ with cv := known, bcnt := 0, loadable := true, responses := rs } h
  obtain ⟨_, t, fold, hcv⟩ := issued_foldCommands empty (attackBlocks knownLen suffix)
  exact ⟨_, t, ((readPad.append load).append readNewPad).append fold, by rw [hcv, loaded]⟩

/-- A digest text is admitted with its words while the forged length is in range (48_host_procedures.md R147). -/
theorem attack_digestText {knownLen : Nat} {suffix : List Byte} (known : Quad) (h : forgedLen knownLen suffix ≤ lenMax) :
    attack knownLen (digestText known) suffix =
      .ok (forged knownLen suffix, attackCommands knownLen known suffix) := by
  rw [attack, (digestTextRoundTrip known).2]
  exact if_neg (Nat.not_lt.2 h)

/-- Settles O59: the attack folds its blocks into the digest of S, which by O56 is the digest of the forged message. -/
theorem attackProcedureForgesTheDigest : Obligations.AttackProcedureForgesTheDigest := by
  intro s S suffix hw h
  obtain ⟨vs, t, issued, hcv⟩ := issued_attack s (md5 S) h
  have digest : t.cv = md5 (S ++ (pad S.length ++ suffix)) := hcv.trans (extensionPropertyOfMd5 S suffix)
  obtain ⟨u, run, same, -, answers⟩ := runSteps_readdig issued hw
  rw [digest] at same answers
  exact ⟨_, u, attack_digestText (md5 S) h, run, same, answers⟩

end Sys2Proof.Machine
end
